-- ==== Sys2Proof/Word.lean ====
section
/-! DEFINITION. The word types of the controller (R8): a byte, an address of `ADDR_WIDTH` = 32 bits (R7, D1), a 32-bit port word. -/

namespace Sys2Proof

/-- `Byte`, the type of 8-bit values (R8). -/
abbrev Byte := BitVec 8

/-- `ADDR_WIDTH`, the width of an address in bits: 32 for this hardware (R7, decision D1). -/
abbrev addrWidth : Nat := 32

/-- A byte address: an unsigned `ADDR_WIDTH`-bit number (R8, R32). -/
abbrev Address := BitVec addrWidth

/-- A 32-bit value of `req.wdata` or `rsp.rdata` (R26). -/
abbrev Word := BitVec 32

end Sys2Proof
end

