-- ==== Sys2Proof/Syntax.lean ====
section
/-! DEFINITION. The two enumerations and the descriptor of R80 to R83, the requests of the two ports (R60), the decoder's
operations (R71), and `Instr`: one constructor per row of spec/opcode_table.json. -/

namespace Sys2Proof

/-- AccessWidth (R80): exactly three widths, of 1, 2 and 4 bytes; R12 fixes the names by bit count. -/
inductive AccessWidth where
  | w8
  | w16
  | w32
deriving DecidableEq, Repr

/-- AccessType (R81): whether the access begins a fresh address decode or continues a burst. -/
inductive AccessType where
  | nonSequential
  | sequential
deriving DecidableEq, Repr

/-- The access descriptor (R83): "a plain pair with no identity". -/
structure Descriptor where
  accessType : AccessType
  accessWidth : AccessWidth
deriving DecidableEq, Repr

/-- The fifteen instructions: the twelve commands of format `CMD` with the operands of R65, and the three region-port
primitives of format `RP` with the operands of R67 that each one uses. -/
inductive Instr where
  /-- READ8 (R101). -/
  | read8 (addr : Address)
  /-- READ16 (R102). -/
  | read16 (addr : Address)
  /-- READ32 (R103). -/
  | read32 (addr : Address)
  /-- WRITE8 (R104); `wdata` is the whole port word, of which R65 uses the low 8 bits. -/
  | write8 (addr : Address) (wdata : Word)
  /-- WRITE16 (R105). -/
  | write16 (addr : Address) (wdata : Word)
  /-- WRITE32 (R106). -/
  | write32 (addr : Address) (wdata : Word)
  /-- CYCLES.N8 (R121). -/
  | cyclesN8 (addr : Address)
  /-- CYCLES.N16 (R122). -/
  | cyclesN16 (addr : Address)
  /-- CYCLES.N32 (R123). -/
  | cyclesN32 (addr : Address)
  /-- CYCLES.S8 (R124). -/
  | cyclesS8 (addr : Address)
  /-- CYCLES.S16 (R125). -/
  | cyclesS16 (addr : Address)
  /-- CYCLES.S32 (R126). -/
  | cyclesS32 (addr : Address)
  /-- GETBYTES (R86). -/
  | getBytes (addr : Address) (len : Nat)
  /-- GETBYTESMUT (R88). -/
  | getBytesMut (addr : Address) (len : Nat)
  /-- GETCYCLES (R91). -/
  | getCycles (addr : Address) (desc : Descriptor)
deriving DecidableEq, Repr

/-- A master request, format `CMD` (R60, R26): the request port's three fields. -/
structure Request where
  cmd : BitVec 8
  addr : Address
  wdata : Word
deriving DecidableEq, Repr

/-- A region-port request, format `RP` (R60, R67). -/
structure RpRequest where
  prim : BitVec 8
  addr : Address
  len : Nat
  desc : BitVec 3
deriving DecidableEq, Repr

/-- A request on one of the two ports (R60: "two request formats and no others"). In a run of the controller every entry
is a `cmd`; an `rp` entry is a primitive issued directly, in "a model of the region port alone" (R134). -/
inductive Issue where
  | cmd (r : Request)
  | rp (r : RpRequest)
deriving DecidableEq, Repr

/-- What the decoder of R71 makes of a command word. -/
inductive Op where
  | illegal (c : BitVec 8)
  | read (w : AccessWidth)
  | write (w : AccessWidth)
  | cycles (t : AccessType) (w : AccessWidth)
deriving DecidableEq, Repr

/-- The outcome of decoding a request: an instruction, or a rejection by name. -/
inductive Decoded where
  /-- The request is this instruction. -/
  | instr (i : Instr)
  /-- `req.cmd` is one of the 244 illegal words (R70). -/
  | illegalCommand (c : BitVec 8)
  /-- The region-port word is one of the reserved 0x03 to 0xFF (R67, R70). -/
  | reservedPrimitive (p : BitVec 8)
  /-- A GETCYCLES request with the descriptor 0b011 or 0b111 (R66). -/
  | illegalDescriptor (d : BitVec 3)
  /-- A view request of length 0 (R86, I15). -/
  | zeroLength
deriving DecidableEq, Repr

/-- One line of the assembler syntax (R73) as its tokens: the mnemonic and the unsigned literals after it. -/
structure AsmLine where
  mnemonic : String
  operands : List Nat
deriving DecidableEq, Repr

/-- The instruction's mnemonic, as spec/opcode_table.json and R73 spell it. -/
def Instr.mnemonic : Instr → String
  | .read8 _ => "READ8"
  | .read16 _ => "READ16"
  | .read32 _ => "READ32"
  | .write8 _ _ => "WRITE8"
  | .write16 _ _ => "WRITE16"
  | .write32 _ _ => "WRITE32"
  | .cyclesN8 _ => "CYCLES.N8"
  | .cyclesN16 _ => "CYCLES.N16"
  | .cyclesN32 _ => "CYCLES.N32"
  | .cyclesS8 _ => "CYCLES.S8"
  | .cyclesS16 _ => "CYCLES.S16"
  | .cyclesS32 _ => "CYCLES.S32"
  | .getBytes _ _ => "GETBYTES"
  | .getBytesMut _ _ => "GETBYTESMUT"
  | .getCycles _ _ => "GETCYCLES"

/-- Whether the instruction is one of the master's twelve commands (R69), and not a region-port primitive (R94). -/
def Instr.isCommand : Instr → Bool
  | .getBytes _ _ | .getBytesMut _ _ | .getCycles _ _ => false
  | .read8 _ | .read16 _ | .read32 _ | .write8 _ _ | .write16 _ _ | .write32 _ _ => true
  | .cyclesN8 _ | .cyclesN16 _ | .cyclesN32 _ | .cyclesS8 _ | .cyclesS16 _ | .cyclesS32 _ => true

/-- Whether the request is on the master's port. -/
def Issue.isCommand : Issue → Bool
  | .cmd _ => true
  | .rp _ => false

end Sys2Proof
end

