-- ==== Sys2Proof/Config.lean ====
section
/-! DEFINITION. The configuration of R7 and R21 as plain data: a region's `CAP`, `IDX`, `CYCLE_FN` and `INIT_MEM`. The free
values of the model, and the region that `State.reset` is bound to. -/

namespace Sys2Proof

/-- A piece of the index function `IDX` (R23): the addresses `base` to `base + len - 1` name the storage bytes `off` on.
DESIGN CHOICE (log entry 1): a list of such windows is how `IDX`, a function of 2^32 addresses, is held as plain data. -/
structure Window where
  base : Nat
  off : Nat
  len : Nat
deriving DecidableEq, Repr

/-- The cost of a transfer for each of the six descriptors (R66, R91): any six natural numbers, with no relation between
them (R129, D14). -/
structure CycleRow where
  n8 : Nat
  n16 : Nat
  n32 : Nat
  s8 : Nat
  s16 : Nat
  s32 : Nat
deriving DecidableEq, Repr, Inhabited

/-- The costs over one range of addresses. -/
structure CycleWindow where
  base : Nat
  len : Nat
  row : CycleRow
deriving DecidableEq, Repr, Inhabited

/-- `CYCLE_FN` (R7, R91) as plain data, total: the first window that holds the address, or `other` where none does. -/
structure CycleTable where
  windows : List CycleWindow
  other : CycleRow
deriving DecidableEq, Repr, Inhabited

/-- The configuration of one region (R21): `CAP`, `IDX`, `CYCLE_FN` and the parameter `INIT_MEM` (R33). -/
structure Region where
  cap : Nat
  windows : List Window
  cycles : CycleTable
  initMem : List Host.Cell
deriving DecidableEq, Repr

/-- The canonical instance of `IDX`, the linear region with base `base` (R23). -/
def Region.linear (base cap : Nat) (cycles : CycleTable) (initMem : List Host.Cell) : Region :=
  { cap := cap, windows := [⟨base, 0, cap⟩], cycles := cycles, initMem := initMem }

/-- A timing table that charges one row at every address. -/
def CycleTable.uniform (row : CycleRow) : CycleTable := { windows := [], other := row }

/-- FREE VALUE (log entry 8): what FR.cmd holds after a primitive issued directly at the region port faults. R138 records
`req.cmd`, and such a request has none. -/
opaque Config.freeCmd : Nat → BitVec 8

/-- FREE VALUE (log entry 8): what the 3-bit FR.len holds when the length recorded does not fit in it. -/
opaque Config.freeLen : Nat → BitVec 3

/-- FREE VALUE (log entry 3): `CYCLE_FN` of the region that `State.reset` is bound to. R7 leaves it open. -/
opaque Config.bootCycles : CycleTable

/-- DESIGN CHOICE (log entry 2): the region that `State.reset` is bound to, R23's own example, 4 bytes at addresses
[0x0, 0x4), with every byte of `INIT_MEM` 0. No statement about all states rests on it: each state names its own region. -/
def Config.bootRegion : Region := Region.linear 0 4 Config.bootCycles []

end Sys2Proof
end

