-- ==== Sys2Proof/WellFormed.lean ====
section
/-! DEFINITION. When an instruction is well-formed, and `REGION_WF` of R23. -/

namespace Sys2Proof

/-- Every command is well-formed for every operand (R65 takes all of them); a view primitive needs a length of at least 1
(R86, R88: "`n ≥ 1`"). -/
def Instr.wellFormed : Instr → Bool
  | .getBytes _ n => decide (1 ≤ n)
  | .getBytesMut _ n => decide (1 ≤ n)
  | .getCycles _ _ => true
  | .read8 _ | .read16 _ | .read32 _ | .write8 _ _ | .write16 _ _ | .write32 _ _ => true
  | .cyclesN8 _ | .cyclesN16 _ | .cyclesN32 _ | .cyclesS8 _ | .cyclesS16 _ | .cyclesS32 _ => true

/-- `REGION_WF(IDX, CAP)` (R23), word for word: an index is below `CAP`, and consecutive addresses inside one stretch of
storage map to consecutive storage bytes. -/
def RegionWf (idx : Address → Option Nat) (cap : Nat) : Prop :=
  (∀ a i, idx a = some i → i < cap) ∧
  (∀ a i, a.toNat + 1 < 2 ^ addrWidth → idx a = some i → i + 1 < cap → idx (a + 1) = some (i + 1))

end Sys2Proof
end

