-- ==== Sys2Proof/Decode.lean ====
section
/-! DEFINITION. The encodings of R61 to R72: field codes, the descriptor combinator, the legality of a command word, the
total decoder of both ports, then the encoder, and the assembler of R73. -/

namespace Sys2Proof

/-- `bytes(wd)`, the byte count of a width (R80, R62). -/
def AccessWidth.bytes : AccessWidth → Nat
  | .w8 => 1
  | .w16 => 2
  | .w32 => 4

/-- `code(wd)`, the width code of field `W` (R62, R82). -/
def AccessWidth.code : AccessWidth → BitVec 2
  | .w8 => 0b00#2
  | .w16 => 0b01#2
  | .w32 => 0b10#2

/-- Field `W` read (R62): 0b11 is reserved. -/
def AccessWidth.ofCode (c : BitVec 2) : Option AccessWidth :=
  if c = 0b00#2 then some .w8
  else if c = 0b01#2 then some .w16
  else if c = 0b10#2 then some .w32
  else none

/-- Field `T` (R63): 0 = NonSequential, 1 = Sequential. -/
def AccessType.code : AccessType → BitVec 1
  | .nonSequential => 0b0#1
  | .sequential => 0b1#1

/-- Field `T` read (R63). -/
def AccessType.ofCode (t : BitVec 1) : AccessType :=
  if t = 0b1#1 then .sequential else .nonSequential

/-- `combine` (R82): the descriptor of an access type and an access width. -/
def combine (t : AccessType) (wd : AccessWidth) : Descriptor := ⟨t, wd⟩

/-- `DESC[2:0] = {T, W[1:0]}` (R66). -/
def Descriptor.code (d : Descriptor) : BitVec 3 := d.accessType.code ++ d.accessWidth.code

/-- `DESC` read (R66): 0b011 and 0b111 are illegal. -/
def Descriptor.ofCode (d : BitVec 3) : Option Descriptor :=
  match AccessWidth.ofCode (d.extractLsb' 0 2) with
  | some w => some (combine (AccessType.ofCode (d.extractLsb' 2 1)) w)
  | none => none

/-- `legal(c)` of R68, clause by clause. -/
def legal (c : BitVec 8) : Bool :=
  c.extractLsb' 5 3 == 0b000#3
    && c.extractLsb' 3 2 != 0b11#2
    && c.extractLsb' 0 2 != 0b11#2
    && (c.extractLsb' 3 2 == 0b10#2 || c.extractLsb' 2 1 == 0b0#1)

/-- The decoder of R71, total over the 256 command words, by the fields of R61 to R64. -/
def decodeWord (c : BitVec 8) : Op :=
  if legal c then
    match AccessWidth.ofCode (c.extractLsb' 0 2) with
    | some w =>
      if c.extractLsb' 3 2 = 0b00#2 then .read w
      else if c.extractLsb' 3 2 = 0b01#2 then .write w
      else .cycles (AccessType.ofCode (c.extractLsb' 2 1)) w
    | none => .illegal c
  else .illegal c

/-- The read command of a width (R101 to R103). -/
def readInstr (w : AccessWidth) (a : Address) : Instr :=
  match w with
  | .w8 => .read8 a
  | .w16 => .read16 a
  | .w32 => .read32 a

/-- The write command of a width (R104 to R106). -/
def writeInstr (w : AccessWidth) (a : Address) (wdata : Word) : Instr :=
  match w with
  | .w8 => .write8 a wdata
  | .w16 => .write16 a wdata
  | .w32 => .write32 a wdata

/-- The cycle query of a type and a width (R121 to R126). -/
def cyclesInstr (t : AccessType) (w : AccessWidth) (a : Address) : Instr :=
  match t, w with
  | .nonSequential, .w8 => .cyclesN8 a
  | .nonSequential, .w16 => .cyclesN16 a
  | .nonSequential, .w32 => .cyclesN32 a
  | .sequential, .w8 => .cyclesS8 a
  | .sequential, .w16 => .cyclesS16 a
  | .sequential, .w32 => .cyclesS32 a

/-- A master request decoded: the command word by R71, the operands by R65 (the address as it is; `wdata` of a command that
is no write is ignored). -/
def decodeCmd (r : Request) : Decoded :=
  match decodeWord r.cmd with
  | .illegal c => .illegalCommand c
  | .read w => .instr (readInstr w r.addr)
  | .write w => .instr (writeInstr w r.addr r.wdata)
  | .cycles t w => .instr (cyclesInstr t w r.addr)

/-- A region-port request decoded (R67): `PSEL` in bits [1:0], bits [7:2] reserved zero. GETBYTES and GETBYTESMUT ignore
`desc`, GETCYCLES ignores `len`. A length of 0 is refused (R86, I15), and so is an illegal descriptor (R66; log entry 10). -/
def decodeRp (r : RpRequest) : Decoded :=
  if r.prim.extractLsb' 2 6 != 0b000000#6 || r.prim.extractLsb' 0 2 == 0b11#2 then .reservedPrimitive r.prim
  else if r.prim.extractLsb' 0 2 = 0b10#2 then
    match Descriptor.ofCode r.desc with
    | some d => .instr (.getCycles r.addr d)
    | none => .illegalDescriptor r.desc
  else if r.len = 0 then .zeroLength
  else if r.prim.extractLsb' 0 2 = 0b00#2 then .instr (.getBytes r.addr r.len)
  else .instr (.getBytesMut r.addr r.len)

/-- The decoder of both ports: total, every other request rejected by name. -/
def decode : Issue → Decoded
  | .cmd r => decodeCmd r
  | .rp r => decodeRp r

/-- A master request as bits, numbered from the command word on: `cmd` in bits 7..0, `addr` in bits 39..8, `wdata` in bits
71..40. DESIGN CHOICE (log entry 7): R60 gives the fields and their widths, not a serial order. -/
def Request.ofBits (w : Nat) : Request :=
  { cmd := BitVec.ofNat 8 w, addr := BitVec.ofNat 32 (w / 2 ^ 8), wdata := BitVec.ofNat 32 (w / 2 ^ 40) }

/-- The request's bits with every bit from `nbits` up read as 0. -/
def Request.ofTableWord (nbits w : Nat) : Request := Request.ofBits (w % 2 ^ nbits)

/-- The instruction the master's port decodes from a table word (log entry 7: the three `RP` rows have the words 0x00 to
0x02 on a port of their own, which this interface cannot name). -/
def decodeTableWord (nbits w : Nat) : Option Instr :=
  match decodeCmd (Request.ofTableWord nbits w) with
  | .instr i => some i
  | .illegalCommand _ | .reservedPrimitive _ | .illegalDescriptor _ | .zeroLength => none

/-- The instruction's word: the twelve command words of R69 and the three region-port words of R67. -/
def Instr.word : Instr → BitVec 8
  | .read8 _ => 0x00#8
  | .read16 _ => 0x01#8
  | .read32 _ => 0x02#8
  | .write8 _ _ => 0x08#8
  | .write16 _ _ => 0x09#8
  | .write32 _ _ => 0x0A#8
  | .cyclesN8 _ => 0x10#8
  | .cyclesN16 _ => 0x11#8
  | .cyclesN32 _ => 0x12#8
  | .cyclesS8 _ => 0x14#8
  | .cyclesS16 _ => 0x15#8
  | .cyclesS32 _ => 0x16#8
  | .getBytes _ _ => 0x00#8
  | .getBytesMut _ _ => 0x01#8
  | .getCycles _ _ => 0x02#8

/-- The encoder: the request that issues an instruction, on the port of its format. A field the instruction does not use is
driven as 0 (log entry 7; "a model may drive any value", 95_test_vectors.md). -/
def encode (i : Instr) : Issue :=
  match i with
  | .read8 a => .cmd ⟨i.word, a, 0⟩
  | .read16 a => .cmd ⟨i.word, a, 0⟩
  | .read32 a => .cmd ⟨i.word, a, 0⟩
  | .write8 a v => .cmd ⟨i.word, a, v⟩
  | .write16 a v => .cmd ⟨i.word, a, v⟩
  | .write32 a v => .cmd ⟨i.word, a, v⟩
  | .cyclesN8 a => .cmd ⟨i.word, a, 0⟩
  | .cyclesN16 a => .cmd ⟨i.word, a, 0⟩
  | .cyclesN32 a => .cmd ⟨i.word, a, 0⟩
  | .cyclesS8 a => .cmd ⟨i.word, a, 0⟩
  | .cyclesS16 a => .cmd ⟨i.word, a, 0⟩
  | .cyclesS32 a => .cmd ⟨i.word, a, 0⟩
  | .getBytes a n => .rp ⟨i.word, a, n, 0⟩
  | .getBytesMut a n => .rp ⟨i.word, a, n, 0⟩
  | .getCycles a d => .rp ⟨i.word, a, 0, d.code⟩

/-- `<addr>` of R73: an unsigned literal that fits in an address. -/
def asmAddr (a : Nat) : Option Address :=
  if a < 2 ^ addrWidth then some (BitVec.ofNat 32 a) else none

/-- `<value>` of R73: wider than the command's width is an assembly error; it is not truncated. -/
def asmValue (w : AccessWidth) (v : Nat) : Option Word :=
  if v < 2 ^ (8 * w.bytes) then some (BitVec.ofNat 32 v) else none

/-- A line with one operand, the address. -/
def asmOfAddr (f : Address → Instr) : List Nat → Option Instr
  | [a] => (asmAddr a).map f
  | [] | _ :: _ :: _ => none

/-- A line with two operands, the address and the value. -/
def asmOfAddrValue (w : AccessWidth) : List Nat → Option Instr
  | [a, v] =>
    match asmAddr a, asmValue w v with
    | some a', some v' => some (writeInstr w a' v')
    | none, _ | _, none => none
  | [] | [_] | _ :: _ :: _ :: _ => none

/-- The twelve mnemonics of R73 and what each one asks for. -/
def asmTable : List (String × Op) :=
  [("READ8", .read .w8), ("READ16", .read .w16), ("READ32", .read .w32),
   ("WRITE8", .write .w8), ("WRITE16", .write .w16), ("WRITE32", .write .w32),
   ("CYCLES.N8", .cycles .nonSequential .w8), ("CYCLES.N16", .cycles .nonSequential .w16),
   ("CYCLES.N32", .cycles .nonSequential .w32), ("CYCLES.S8", .cycles .sequential .w8),
   ("CYCLES.S16", .cycles .sequential .w16), ("CYCLES.S32", .cycles .sequential .w32)]

/-- The assembler (R73), from tokens (log entry 14): one command per line, the mnemonics of the twelve commands, no pseudo-instructions. -/
def assemble (l : AsmLine) : Option Instr :=
  match asmTable.lookup l.mnemonic with
  | some (.read w) => asmOfAddr (readInstr w) l.operands
  | some (.write w) => asmOfAddrValue w l.operands
  | some (.cycles t w) => asmOfAddr (cyclesInstr t w) l.operands
  | some (.illegal _) | none => none

end Sys2Proof
end

