-- ==== Sys2Proof/Machine/State.lean ====
section
/-! DEFINITION. The machine's state: Σ = (S, FR, V) of R21, the ports of R26, the region's configuration (R21), and the
master's side of the interface (R27, R158). Everything is plain data. -/

namespace Sys2Proof.Machine

/-- Storage contents by storage index: pairs (index, byte) with rising indices, no pair listed whose byte is `unlistedByte`. -/
abbrev Memory := List Host.Cell

/-- What an index not listed reads as. DESIGN CHOICE (log entry 1): only a convention of writing contents down, since every
contents of `CAP` bytes, those of `INIT_MEM` among them, have exactly one such list. -/
def unlistedByte : Byte := 0x00#8

/-- The kind of a view (R30). -/
inductive ViewKind where
  | imm
  | mut
deriving DecidableEq, Repr

/-- A view `(kind, i, n)` (R30): element `k`, for `k < n`, is storage byte `S[i + k]` (R87). -/
structure View where
  kind : ViewKind
  start : Nat
  len : Nat
deriving DecidableEq, Repr

/-- The fault record `FR` with the widths of R29. -/
structure FaultRecord where
  valid : BitVec 1
  code : BitVec 4
  cmd : BitVec 8
  addr : BitVec 32
  len : BitVec 3
  prim : BitVec 2
deriving DecidableEq, Repr

/-- `FR` after reset (R33, R150). -/
def FaultRecord.clear : FaultRecord :=
  { valid := 0#1, code := 0#4, cmd := 0#8, addr := 0#32, len := 0#3, prim := 3#2 }

/-- The response port (R26). A field the command did not produce holds no value (R9). -/
structure Response where
  rdata : Option Word
  cyc : Option Nat
  werr : Option (BitVec 1)
deriving DecidableEq, Repr

/-- No response field holds a value (R33). -/
def Response.empty : Response := { rdata := none, cyc := none, werr := none }

/-- What a region primitive returns to whoever issued it (R86, R88: a view; R91: a number). -/
inductive PrimResult where
  | view (v : View)
  | cycles (n : Nat)
deriving DecidableEq, Repr

/-- The state of one controller bound to one region, and its master. -/
structure State where
  /-- The configuration, "never changed by any command" (R21). -/
  region : Region
  /-- `S` (R22). -/
  storage : Memory
  /-- `FR` (R29). -/
  fr : FaultRecord
  /-- `V` (R30). -/
  views : List View
  /-- The response port (R26). -/
  rsp : Response
  /-- What the region port answered to a primitive issued directly (R60; log entry 9). -/
  primRsp : Option PrimResult
  /-- The master's requests not yet issued, in program order (R27). -/
  commands : List Issue
  /-- The master's position: how many requests have completed (R27). -/
  pos : Nat
  /-- The responses of the completed commands, oldest first (R158). -/
  responses : List Response
  /-- The model's own: how many free values have been drawn (log entry 8). -/
  draws : Nat
deriving DecidableEq, Repr

/-- The state just after reset of a controller bound to region `r` (R33, R150), the master at the start of an empty list. -/
def State.resetOf (r : Region) : State :=
  { region := r
    storage := r.initMem
    fr := FaultRecord.clear
    views := []
    rsp := Response.empty
    primRsp := none
    commands := []
    pos := 0
    responses := []
    draws := 0 }

/-- The machine right after reset. R7 leaves the region open: `Config.bootRegion` is a DESIGN CHOICE (log entry 2). -/
def State.reset : State := State.resetOf Config.bootRegion

/-- Why the machine stops. Each reason carries the state it stops in, with the fault record of R138 written, so that the
host may observe `FR` (R29). DEDUCED (log entry 5): a fatal fault is this outcome, not a next state (R4, R140). -/
inductive Fault where
  /-- RANGE_FAULT (R132): raised by GETBYTES and GETBYTESMUT, and so by the six transfers, for a range that is not covered.
  Safe: R4 and R140 make it a fault outcome, never a completion. -/
  | rangeFault (stopped : State)
  /-- ILLEGAL_COMMAND (R133): raised by the step at decode, for any of the 244 illegal command words. Safe, as above. -/
  | illegalCommand (stopped : State)
  /-- ALIAS_VIOLATION (R134): raised by GETBYTES and GETBYTESMUT when exclusivity would break; no run of the controller
  reaches it (R90). Safe, as above. -/
  | aliasViolation (stopped : State)
  /-- No step (R140, R100): raised while `FR.valid` = 1 by every command, by GETBYTES and GETBYTESMUT issued directly
  (log entry 16), and by a step with no request left. Safe. -/
  | stopped (state : State)
  /-- A response field was read that the last command did not produce (R9, I16). Raised by the reading accessors
  `State.readRdata`, `readCyc`, `readWerr` only, never by a step. Safe: "never a value". -/
  | noResponseField (state : State)
deriving DecidableEq, Repr

/-- Why the model gives a request no meaning. -/
inductive Refusal where
  /-- An instruction with no meaning yet, by mnemonic. No arm of `exec` answers it now. Safe. -/
  | notModelled (mnemonic : String)
  /-- A region-port word 0x03 to 0xFF (R67, I14): refused by the step of a region-only run. Safe. -/
  | reservedPrimitive (p : BitVec 8)
  /-- A GETCYCLES request whose descriptor is 0b011 or 0b111 (R66; log entry 10): refused by the step of a region-only run.
  Safe. -/
  | illegalDescriptor (d : BitVec 3)
  /-- A view of length 0 (R86, I15: "a model of a region alone refuses it"): refused by GETBYTES and GETBYTESMUT. Safe. -/
  | zeroLength
  /-- A region that is not well-formed (R23, I18) is not bound: refused by `State.boot`. Safe. -/
  | regionIllFormed
deriving DecidableEq, Repr

/-- The state a fault stops in. -/
def Fault.state : Fault → State
  | .rangeFault s => s
  | .illegalCommand s => s
  | .aliasViolation s => s
  | .stopped s => s
  | .noResponseField s => s

end Sys2Proof.Machine
end

