-- ==== Sys2Proof/Machine/Flags.lean ====
section
/-! DEFINITION. The controller has no flags (R28). The status a command produces is the recoverable write status (R107); the
causes of R131 are the only other condition it reports. The response each family of commands produces (R26). -/

namespace Sys2Proof.Machine

/-- `rsp.werr` of a write that has its view: always 0, since the encode step cannot fail (R107, R135, D10). -/
def writeStatus : BitVec 1 := 0#1

/-- The fatal causes of R130. -/
inductive Cause where
  | rangeFault
  | illegalCommand
  | aliasViolation
deriving DecidableEq, Repr

/-- `code(F)` (R131). -/
def Cause.code : Cause → BitVec 4
  | .rangeFault => 1#4
  | .illegalCommand => 2#4
  | .aliasViolation => 3#4

/-- The fault outcome of a cause, in the state the cause left. -/
def Cause.fault (c : Cause) (s : State) : Fault :=
  match c with
  | .rangeFault => .rangeFault s
  | .illegalCommand => .illegalCommand s
  | .aliasViolation => .aliasViolation s

/-- `FR.prim` for a primitive that hands out a view of this kind (R29): 0 = GETBYTES, 1 = GETBYTESMUT. -/
def ViewKind.primCode : ViewKind → BitVec 2
  | .imm => 0#2
  | .mut => 1#2

/-- `FR.prim` when no primitive faulted (R29). -/
def noPrim : BitVec 2 := 3#2

/-- READ8/16/32 produce `rsp.rdata` only (R26). -/
def Response.ofRdata (v : Word) : Response := { Response.empty with rdata := some v }

/-- CYCLES.* produce `rsp.cyc` only (R26). -/
def Response.ofCyc (n : Nat) : Response := { Response.empty with cyc := some n }

/-- WRITE8/16/32 produce `rsp.werr` only (R26). -/
def Response.ofWerr (e : BitVec 1) : Response := { Response.empty with werr := some e }

end Sys2Proof.Machine
end

