-- ==== Sys2Proof/Machine/Operands.lean ====
section
/-! DEFINITION. Operand assembly (R65) and the little-endian codec (R10, R40). -/

namespace Sys2Proof.Machine

/-- `v = req.wdata[8w-1:0]` (R65): the bits above are ignored. -/
def writeValue (w : AccessWidth) (wdata : Word) : BitVec (8 * w.bytes) := wdata.extractLsb' 0 (8 * w.bytes)

/-- `LE_encode_n(v)[k] = v[8k+7:8k]` for `k < n` (R10). -/
def leEncode {m : Nat} (n : Nat) (v : BitVec m) : List Byte := (List.range n).map fun k => v.extractLsb' (8 * k) 8

/-- `LE_decode(b) = Σ b[k] · 2^(8k)` (R10). -/
def leDecode : List Byte → Nat
  | [] => 0
  | b :: bs => b.toNat + 2 ^ 8 * leDecode bs

/-- `zext_32` of the little-endian value of at most 4 bytes (R65, R100). -/
def readValue (bs : List Byte) : Word := BitVec.ofNat 32 (leDecode bs)

end Sys2Proof.Machine
end

