-- ==== Sys2Proof/Machine/Ops.lean ====
section
/-! DEFINITION. The shared operations: storage by index, the region's functions `IDX`, `covers` and `CYCLE_FN`, views, the
fatal-fault entry of R138 and the reset of R150, the view primitives, the end of a command, and the master's side. -/

namespace Sys2Proof.Machine

/-! ### Storage (R22) -/

/-- The byte at a storage index. -/
def Memory.read : Memory → Nat → Byte
  | [], _ => unlistedByte
  | (k, b) :: m, i => if k = i then b else Memory.read m i

/-- The contents with an index no longer listed. -/
def Memory.erase : Memory → Nat → Memory
  | [], _ => []
  | (k, b) :: m, i => if k = i then Memory.erase m i else (k, b) :: Memory.erase m i

/-- The contents with a pair put in its place. -/
def Memory.insert : Memory → Nat → Byte → Memory
  | [], i, b => [(i, b)]
  | (k, c) :: m, i, b => if i < k then (i, b) :: (k, c) :: m else (k, c) :: Memory.insert m i b

/-- `S[i] <- b`, in canonical form: writing what an unlisted index reads as takes the entry out. -/
def Memory.write (m : Memory) (i : Nat) (b : Byte) : Memory :=
  if b = unlistedByte then Memory.erase m i else Memory.insert (Memory.erase m i) i b

/-- `S[i + k] <- bs[k]` for every `k`, `k = 0` first (R100). -/
def Memory.writeBytes : Memory → Nat → List Byte → Memory
  | m, _, [] => m
  | m, i, b :: bs => Memory.writeBytes (Memory.write m i b) (i + 1) bs

/-- The canonical form: indices strictly rising, and no entry that reads as an unlisted one. -/
abbrev Memory.wf (m : Memory) : Prop :=
  m.Pairwise (fun x y => x.1 < y.1) ∧ ∀ c ∈ m, c.2 ≠ unlistedByte

/-- Every listed index is below `cap` (R22: indexed `0 .. CAP-1`). -/
abbrev Memory.within (m : Memory) (cap : Nat) : Prop := ∀ c ∈ m, c.1 < cap

end Sys2Proof.Machine

namespace Sys2Proof

/-! ### The region's functions (R23, R24, R91) -/

/-- The index function of a list of windows: the first window that holds the address decides. -/
def windowIndex : List Window → Nat → Option Nat
  | [], _ => none
  | w :: ws, a => if w.base ≤ a ∧ a < w.base + w.len then some (w.off + (a - w.base)) else windowIndex ws a

/-- `IDX` (R23). -/
def Region.idx (r : Region) (a : Address) : Option Nat := windowIndex r.windows a.toNat

/-- The storage index `i` with `IDX(a) = some i` when `covers(a, n)` holds (R24), and none when it does not: `a + n` and
`i + n` are sums of natural numbers, so a range never wraps (R50). -/
def Region.locate (r : Region) (a : Address) (n : Nat) : Option Nat :=
  match r.idx a with
  | some i => if a.toNat + n ≤ 2 ^ addrWidth ∧ i + n ≤ r.cap then some i else none
  | none => none

/-- `covers(a, n)` (R24). -/
def Region.covers (r : Region) (a : Address) (n : Nat) : Bool := (r.locate a n).isSome

/-- The cost a row gives a descriptor. -/
def CycleRow.cost (row : CycleRow) (d : Descriptor) : Nat :=
  match d.accessType, d.accessWidth with
  | .nonSequential, .w8 => row.n8
  | .nonSequential, .w16 => row.n16
  | .nonSequential, .w32 => row.n32
  | .sequential, .w8 => row.s8
  | .sequential, .w16 => row.s16
  | .sequential, .w32 => row.s32

/-- The row for an address: the first window that holds it, or the row for the rest. -/
def cycleRow : List CycleWindow → CycleRow → Nat → CycleRow
  | [], other, _ => other
  | w :: ws, other, a => if w.base ≤ a ∧ a < w.base + w.len then w.row else cycleRow ws other a

/-- `CYCLE_FN(a, d)` (R91): total over every address, one the region does not own included (D13). -/
def Region.cycleFn (r : Region) (a : Address) (d : Descriptor) : Nat :=
  (cycleRow r.cycles.windows r.cycles.other a.toNat).cost d

/-- A window lies in the address space and in storage, and where it ends the index function goes on as `REGION_WF` asks. -/
def Region.windowOk (r : Region) (w : Window) : Bool :=
  decide (w.base + w.len ≤ 2 ^ addrWidth) && decide (w.off + w.len ≤ r.cap)
    && (decide (w.off + w.len = r.cap) || decide (w.base + w.len = 2 ^ addrWidth)
      || decide (windowIndex r.windows (w.base + w.len) = some (w.off + w.len)))

/-- The check made before a region is bound (R152, step 1; log entry 11): it implies `REGION_WF` (Laws/Region.lean), and
that `INIT_MEM` is written down canonically within `CAP` bytes. -/
def Region.check (r : Region) : Bool :=
  r.windows.all r.windowOk
    && decide (r.windows.Pairwise fun v w => v.base + v.len ≤ w.base ∨ w.base + w.len ≤ v.base)
    && decide (Machine.Memory.wf r.initMem) && decide (Machine.Memory.within r.initMem r.cap)

end Sys2Proof

namespace Sys2Proof.Machine

/-- `byte(a)` (R25): `S[i]` where `IDX(a) = some i`, defined only when `covers(a, 1)`. -/
def State.byteAt (s : State) (a : Address) : Option Byte :=
  (s.region.locate a 1).map (Memory.read s.storage)

/-! ### Views (R30, R87, R89) -/

/-- Two views overlap (R30): `i1 < i2 + n2 and i2 < i1 + n1`. -/
def View.overlaps (v w : View) : Bool := decide (v.start < w.start + w.len) && decide (w.start < v.start + v.len)

/-- The exclusivity check: R86 for an immutable view (any live mutable view that overlaps), R88 for a mutable one (any live
view that overlaps). -/
def conflicts (v : View) (live : List View) : Bool :=
  live.any fun u => (u.kind == .mut || v.kind == .mut) && u.overlaps v

/-- The elements of a view, `view[0]` first: element `k` is `S[i + k]` (R87). -/
def viewBytes (m : Memory) (v : View) : List Byte := (List.range v.len).map fun k => Memory.read m (v.start + k)

/-- `view[k] <- b` (R88): through a live mutable view, for `k < n`, and through no other (log entry 12). While `FR.valid` = 1
there is none, through a view still live either: R140 says that `S` does not change. -/
def State.viewWrite (s : State) (v : View) (k : Nat) (b : Byte) : Option State :=
  if s.fr.valid ≠ 1#1 ∧ v ∈ s.views ∧ v.kind = .mut ∧ k < v.len then
    some { s with storage := Memory.write s.storage (v.start + k) b }
  else none

/-! ### Fatal faults and reset (R138, R140, R150) -/

/-- `FR.len <- info.len` (R138) in its 3 bits. A length that does not fit is recorded as a free value (log entry 8); the
lengths of a run of the controller, 0, 1, 2 and 4, all fit. -/
def recordLen (n draw : Nat) : BitVec 3 := if n < 8 then BitVec.ofNat 3 n else Config.freeLen draw

/-- `raise F(info)` (R138): the fault record is written and no response field is produced. `cmd` is `req.cmd`; a primitive
issued directly has none, and FR.cmd is then a free value (log entry 8). Nothing else changes but the two ports, which then
hold no value (log entry 15). -/
def raise (c : Cause) (cmd : Option (BitVec 8)) (addr : Address) (len : Nat) (prim : BitVec 2) (s : State) : State :=
  { s with
    fr := { valid := 1#1, code := c.code, cmd := cmd.getD (Config.freeCmd s.draws), addr := addr,
            len := recordLen len s.draws, prim := prim }
    rsp := Response.empty
    primRsp := none
    draws := match cmd with | some _ => s.draws | none => s.draws + 1 }

/-- The fault outcome of `raise`. -/
def raiseFault {α : Type} (c : Cause) (cmd : Option (BitVec 8)) (addr : Address) (len : Nat) (prim : BitVec 2) (s : State) :
    Host.Outcome α Fault Refusal :=
  .fault (c.fault (raise c cmd addr len prim s))

/-- ILLEGAL_COMMAND for a request (R133): length 0, no primitive. -/
def raiseIllegal {α : Type} (r : Request) (s : State) : Host.Outcome α Fault Refusal :=
  raiseFault .illegalCommand (some r.cmd) r.addr 0 noPrim s

/-- The reset action (R150), from any state: the only way to clear a fatal fault. There is no return from a fault (R141). The
configuration is not changed, and the master's side is not the controller's (R27; log entry 13). -/
def applyReset (s : State) : State :=
  { s with
    storage := s.region.initMem
    fr := FaultRecord.clear
    views := []
    rsp := Response.empty
    primRsp := none }

/-- Construct, load and bind (R152): a region that passes the check is bound, another is refused (log entry 11). -/
def State.boot (r : Region) : Host.Outcome State Fault Refusal :=
  if r.check then .next (State.resetOf r) else .refused .regionIllFormed

/-- While `FR.valid` = 1 no command has a step (R140, R100); nor has a view primitive issued directly (log entry 16). -/
def whenRunning (s : State) (k : Host.Outcome State Fault Refusal) : Host.Outcome State Fault Refusal :=
  if s.fr.valid = 1#1 then .fault (.stopped s) else k

/-! ### The primitives (R86, R88, R91) and the commands built from them (R85, R100) -/

/-- GetBytes (kind `imm`) and GetBytesMut (kind `mut`): the range first, then the exclusivity check (R137), then the view
joins `V`. `cmd` is the command that asks, if one does. -/
def acquire (kind : ViewKind) (cmd : Option (BitVec 8)) (a : Address) (n : Nat) (s : State) :
    Host.Outcome (View × State) Fault Refusal :=
  if n = 0 then .refused .zeroLength
  else
    match s.region.locate a n with
    | none => raiseFault .rangeFault cmd a n kind.primCode s
    | some i =>
      if conflicts ⟨kind, i, n⟩ s.views then raiseFault .aliasViolation cmd a n kind.primCode s
      else .next (⟨kind, i, n⟩, { s with views := s.views ++ [⟨kind, i, n⟩] })

/-- Go on with what an operation answered; a fault or a refusal passes through. -/
def andThen {α β : Type} (x : Host.Outcome α Fault Refusal) (k : α → Host.Outcome β Fault Refusal) :
    Host.Outcome β Fault Refusal :=
  match x with
  | .next v => k v
  | .fault f => .fault f
  | .refused r => .refused r

/-- The end of a command: its response is on the port, and no view is live (R100: `V <- []`; log entry 6), so none stands on
the region port (log entry 9). -/
def endCommand (rsp : Response) (s : State) : State := { s with rsp := rsp, views := [], primRsp := none }

/-- ReadOp (R100), whole: `cmd` is the command word. Its view and that view's bytes are R10's `MemRead`. -/
def readOp (cmd : BitVec 8) (w : AccessWidth) (a : Address) (s : State) : Host.Outcome State Fault Refusal :=
  whenRunning s <| andThen (acquire .imm (some cmd) a w.bytes s) fun (v, t) =>
    .next (endCommand (Response.ofRdata (readValue (viewBytes t.storage v))) t)

/-- WriteOp (R100), whole: every byte goes through the one mutable view, as R10's `MemWrite` says. -/
def writeOp (cmd : BitVec 8) (w : AccessWidth) (a : Address) (wdata : Word) (s : State) :
    Host.Outcome State Fault Refusal :=
  whenRunning s <| andThen (acquire .mut (some cmd) a w.bytes s) fun (v, t) =>
    .next (endCommand (Response.ofWerr writeStatus)
      { t with storage := Memory.writeBytes t.storage v.start (leEncode w.bytes (writeValue w wdata)) })

/-- CyclesOp (R120): no view, no range check, no fault. -/
def cyclesOp (d : Descriptor) (a : Address) (s : State) : Host.Outcome State Fault Refusal :=
  whenRunning s <| .next (endCommand (Response.ofCyc (s.region.cycleFn a d)) s)

/-- A view primitive issued directly at the region port (R86, R88): the view stays live. DESIGN CHOICE (log entry 18): the
response port keeps what the last command left there. -/
def viewPrimitive (kind : ViewKind) (a : Address) (n : Nat) (s : State) : Host.Outcome State Fault Refusal :=
  whenRunning s <| andThen (acquire kind none a n s) fun (v, t) => .next { t with primRsp := some (.view v) }

/-- GETCYCLES issued directly at the region port (R91): it reads neither `S` nor `V` nor `FR` and raises nothing, so it
answers in every state, a stopped one too (log entry 16). DESIGN CHOICE (log entry 18): the response port keeps what the last
command left there. -/
def cyclesPrimitive (d : Descriptor) (a : Address) (s : State) : Host.Outcome State Fault Refusal :=
  .next { s with primRsp := some (.cycles (s.region.cycleFn a d)) }

/-! ### The master's side (R27, R9, R158) -/

/-- The request at the master's position, if one is left. -/
def State.fetch (s : State) : Option Issue := s.commands.head?

/-- A completed request: the master's position moves on (R27), and a command's response joins the sequence (R158). -/
def retire (x : Issue) (s : State) : State :=
  { s with
    commands := s.commands.tail
    pos := s.pos + 1
    responses := match x with | .cmd _ => s.responses ++ [s.rsp] | .rp _ => s.responses }

/-- The outcome of a request once its instruction has run. -/
def retireOutcome (x : Issue) (o : Host.Outcome State Fault Refusal) : Host.Outcome State Fault Refusal :=
  andThen o fun t => .next (retire x t)

/-- The master is given a list of requests. -/
def State.load (xs : List Issue) (s : State) : State := { s with commands := xs, pos := 0, responses := [] }

/-- A response field read by the master: a field the last command did not produce holds no value (R9, I16). -/
def readField {α : Type} (f : Response → Option α) (s : State) : Host.Outcome α Fault Refusal :=
  match f s.rsp with
  | some v => .next v
  | none => .fault (.noResponseField s)

/-- The master reads `rsp.rdata`. -/
def State.readRdata (s : State) : Host.Outcome Word Fault Refusal := readField Response.rdata s

/-- The master reads `rsp.cyc`. -/
def State.readCyc (s : State) : Host.Outcome Nat Fault Refusal := readField Response.cyc s

/-- The master reads `rsp.werr`. -/
def State.readWerr (s : State) : Host.Outcome (BitVec 1) Fault Refusal := readField Response.werr s

end Sys2Proof.Machine
end

