-- ==== Sys2Proof/Machine/Cycles.lean ====
section
/-! DEFINITION. The cycle-cost query, one command per descriptor (43_cycle_query.md). -/

namespace Sys2Proof.Machine

/-- CYCLES.N8 (R121). -/
def execCyclesN8 (addr : Address) (s : State) : Host.Outcome State Fault Refusal :=
  cyclesOp (combine .nonSequential .w8) addr s

/-- CYCLES.N16 (R122). -/
def execCyclesN16 (addr : Address) (s : State) : Host.Outcome State Fault Refusal :=
  cyclesOp (combine .nonSequential .w16) addr s

/-- CYCLES.N32 (R123). -/
def execCyclesN32 (addr : Address) (s : State) : Host.Outcome State Fault Refusal :=
  cyclesOp (combine .nonSequential .w32) addr s

/-- CYCLES.S8 (R124). -/
def execCyclesS8 (addr : Address) (s : State) : Host.Outcome State Fault Refusal :=
  cyclesOp (combine .sequential .w8) addr s

/-- CYCLES.S16 (R125). -/
def execCyclesS16 (addr : Address) (s : State) : Host.Outcome State Fault Refusal :=
  cyclesOp (combine .sequential .w16) addr s

/-- CYCLES.S32 (R126). -/
def execCyclesS32 (addr : Address) (s : State) : Host.Outcome State Fault Refusal :=
  cyclesOp (combine .sequential .w32) addr s

end Sys2Proof.Machine
end

