-- ==== Sys2Proof/Machine/Primitives.lean ====
section
/-! DEFINITION. The three region primitives issued directly at the region port (41_region_primitives.md). -/

namespace Sys2Proof.Machine

/-- GETBYTES (R86). -/
def execGetBytes (addr : Address) (len : Nat) (s : State) : Host.Outcome State Fault Refusal :=
  viewPrimitive .imm addr len s

/-- GETBYTESMUT (R88). -/
def execGetBytesMut (addr : Address) (len : Nat) (s : State) : Host.Outcome State Fault Refusal :=
  viewPrimitive .mut addr len s

/-- GETCYCLES (R91). -/
def execGetCycles (addr : Address) (desc : Descriptor) (s : State) : Host.Outcome State Fault Refusal :=
  cyclesPrimitive desc addr s

end Sys2Proof.Machine
end

