-- ==== Sys2Proof/Machine/Transfers.lean ====
section
/-! DEFINITION. The six typed transfers (42_transfers.md). -/

namespace Sys2Proof.Machine

/-- READ8 (R101). -/
def execRead8 (addr : Address) (s : State) : Host.Outcome State Fault Refusal := readOp 0x00#8 .w8 addr s

/-- READ16 (R102). -/
def execRead16 (addr : Address) (s : State) : Host.Outcome State Fault Refusal := readOp 0x01#8 .w16 addr s

/-- READ32 (R103). -/
def execRead32 (addr : Address) (s : State) : Host.Outcome State Fault Refusal := readOp 0x02#8 .w32 addr s

/-- WRITE8 (R104). -/
def execWrite8 (addr : Address) (wdata : Word) (s : State) : Host.Outcome State Fault Refusal :=
  writeOp 0x08#8 .w8 addr wdata s

/-- WRITE16 (R105). -/
def execWrite16 (addr : Address) (wdata : Word) (s : State) : Host.Outcome State Fault Refusal :=
  writeOp 0x09#8 .w16 addr wdata s

/-- WRITE32 (R106). -/
def execWrite32 (addr : Address) (wdata : Word) (s : State) : Host.Outcome State Fault Refusal :=
  writeOp 0x0A#8 .w32 addr wdata s

end Sys2Proof.Machine
end

