-- ==== Sys2Proof/Machine/Dispatch.lean ====
section
/-! DEFINITION. One arm per instruction. -/

namespace Sys2Proof.Machine

/-- The meaning of an instruction. -/
def exec (i : Instr) (s : State) : Host.Outcome State Fault Refusal :=
  match i with
  | .read8 addr => Sys2Proof.Machine.execRead8 addr s
  | .read16 addr => Sys2Proof.Machine.execRead16 addr s
  | .read32 addr => Sys2Proof.Machine.execRead32 addr s
  | .write8 addr wdata => Sys2Proof.Machine.execWrite8 addr wdata s
  | .write16 addr wdata => Sys2Proof.Machine.execWrite16 addr wdata s
  | .write32 addr wdata => Sys2Proof.Machine.execWrite32 addr wdata s
  | .cyclesN8 addr => Sys2Proof.Machine.execCyclesN8 addr s
  | .cyclesN16 addr => Sys2Proof.Machine.execCyclesN16 addr s
  | .cyclesN32 addr => Sys2Proof.Machine.execCyclesN32 addr s
  | .cyclesS8 addr => Sys2Proof.Machine.execCyclesS8 addr s
  | .cyclesS16 addr => Sys2Proof.Machine.execCyclesS16 addr s
  | .cyclesS32 addr => Sys2Proof.Machine.execCyclesS32 addr s
  | .getBytes addr len => Sys2Proof.Machine.execGetBytes addr len s
  | .getBytesMut addr len => Sys2Proof.Machine.execGetBytesMut addr len s
  | .getCycles addr desc => Sys2Proof.Machine.execGetCycles addr desc s

end Sys2Proof.Machine
end

