-- ==== Sys2Proof/Machine/Step.lean ====
section
/-! DEFINITION. One step (R100): the next request of the master is decoded and run. -/

namespace Sys2Proof.Machine

/-- `Step(req)` (R100). While `FR.valid` = 1 no command has a step, and the controller is not idle either (R140). With no
request left a running controller is idle and holds its state (R148; log entry 4). An illegal word raises ILLEGAL_COMMAND at
decode (R133). A primitive issued directly is the region's own, and its meaning says what it does on a stopped controller
(log entry 16). -/
def step (s : State) : Host.Outcome State Fault Refusal :=
  match s.fetch with
  | none => whenRunning s (.next s)
  | some (.cmd r) =>
    whenRunning s <|
      match decode (.cmd r) with
      | .instr i => retireOutcome (.cmd r) (exec i s)
      | .illegalCommand _ => raiseIllegal r s
      | .reservedPrimitive p => .refused (.reservedPrimitive p)
      | .illegalDescriptor d => .refused (.illegalDescriptor d)
      | .zeroLength => .refused .zeroLength
  | some (.rp q) =>
    match decode (.rp q) with
    | .instr i => retireOutcome (.rp q) (exec i s)
    | .illegalCommand p => .refused (.reservedPrimitive p)
    | .reservedPrimitive p => .refused (.reservedPrimitive p)
    | .illegalDescriptor d => .refused (.illegalDescriptor d)
    | .zeroLength => .refused .zeroLength

/-- The state with the request of a table word as the master's next command. -/
def State.withFetchWord (s : State) (nbits w : Nat) : State :=
  { s with commands := .cmd (Request.ofTableWord nbits w) :: s.commands.tail }

end Sys2Proof.Machine
end

