-- ==== Sys2Proof/Safety.lean ====
section
/-! DEFINITION. The terms statements use: the invariant of a running machine, runs of the controller, the normal end of a run
(R158), and the storage a sequence of commands should leave (R52). -/

namespace Sys2Proof

/-- The index function satisfies `REGION_WF` (R23), and `INIT_MEM` is contents of `CAP` bytes, written canonically. -/
structure Region.Ok (r : Region) : Prop where
  wf : RegionWf r.idx r.cap
  init_wf : Machine.Memory.wf r.initMem
  init_within : Machine.Memory.within r.initMem r.cap

/-- `covers(a, n)` written out as R24 states it, with the index `i` its range starts at. -/
def Region.Covers (r : Region) (a : Address) (n i : Nat) : Prop :=
  a.toNat + n ≤ 2 ^ addrWidth ∧ r.idx a = some i ∧ i + n ≤ r.cap

end Sys2Proof

namespace Sys2Proof.Machine

/-- Exclusivity of a list of views (R89): no two of them overlap where either is mutable. -/
def Exclusive (vs : List View) : Prop :=
  vs.Pairwise fun u v => u.kind = .mut ∨ v.kind = .mut → u.overlaps v = false

/-- A view lies in storage (R30): `i + n ≤ CAP`, and it has at least one element (R86, R88). -/
def View.inStorage (cap : Nat) (v : View) : Prop := 1 ≤ v.len ∧ v.start + v.len ≤ cap

/-- At most one response field holds a value (R26: each command produces one). -/
def Response.AtMostOne (r : Response) : Prop :=
  (r.rdata = none ∧ r.cyc = none) ∨ (r.rdata = none ∧ r.werr = none) ∨ (r.cyc = none ∧ r.werr = none)

/-- What holds of the machine whether it runs or has stopped: storage is contents of `CAP` bytes in canonical form (R22),
views are exclusive (R89) and in storage (R30), the region is well-formed (R23), and the response port and the sequence of
responses hold at most one field each, `werr` only as 0 (R107). -/
structure State.Sound (s : State) : Prop where
  region_ok : s.region.Ok
  storage_wf : Memory.wf s.storage
  storage_within : Memory.within s.storage s.region.cap
  exclusive : Exclusive s.views
  in_storage : ∀ v ∈ s.views, v.inStorage s.region.cap
  rsp_one : s.rsp.AtMostOne
  werr_zero : ∀ e, s.rsp.werr = some e → e = 0#1
  responses_one : ∀ r ∈ s.responses, r.AtMostOne ∧ ∀ e, r.werr = some e → e = 0#1

/-- The invariant of a machine that has not stopped: it is sound, and `FR` is its reset record (R29: "written only by a fatal
fault and cleared only by reset"). -/
structure State.Inv (s : State) : Prop where
  sound : s.Sound
  fr_clear : s.fr = FaultRecord.clear

/-- A fault record that a fatal fault of a master command may leave (R29, R131): `valid` is 1, the code is 1, 2 or 3, the
length is 0, 1, 2 or 4, the primitive 0, 1 or 3; length 0 and primitive 3 belong to ILLEGAL_COMMAND. -/
structure FaultRecord.OfCommand (f : FaultRecord) : Prop where
  valid : f.valid = 1#1
  code : f.code = 1#4 ∨ f.code = 2#4 ∨ f.code = 3#4
  len : f.len = 0#3 ∨ f.len = 1#3 ∨ f.len = 2#3 ∨ f.len = 4#3
  prim : f.prim = 0#2 ∨ f.prim = 1#2 ∨ f.prim = 3#2
  illegal_len : f.code = 2#4 ↔ f.len = 0#3
  illegal_prim : f.code = 2#4 ↔ f.prim = 3#2

/-- A run of the controller: no request of the list is a region-port primitive issued directly (R94), and no view is live
(R30: `V` is empty at every command boundary). -/
structure State.ControllerRun (s : State) : Prop where
  commands_only : ∀ x ∈ s.commands, x.isCommand = true
  no_views : s.views = []

/-- A view of the `n` bytes from index `i` may be handed out as an immutable one (R86): no live mutable view overlaps it. -/
def State.FreeOfWriters (s : State) (i n : Nat) : Prop :=
  ∀ v ∈ s.views, v.kind = .mut → ¬(v.start < i + n ∧ i < v.start + v.len)

/-- A view of the `n` bytes from index `i` may be handed out as a mutable one (R88): no live view overlaps it. -/
def State.FreeOfViews (s : State) (i n : Nat) : Prop := ∀ v ∈ s.views, ¬(v.start < i + n ∧ i < v.start + v.len)

/-- The state a completed command leaves when it changes no storage: its response, and no live view (R100). -/
def State.answered (s : State) (r : Response) : State := { s with rsp := r, views := [], primRsp := none }

/-- The state a fatal fault leaves (R138): the record, no response field, and nothing else changed. -/
def State.faulted (s : State) (fr : FaultRecord) : State := { s with fr := fr, rsp := Response.empty, primRsp := none }

/-- Two states that only differ in how their regions and storage are written down, and in the model's own counter: the same
`CAP`, `IDX`, `CYCLE_FN` and `S` (R85), the same `FR`, `V`, ports and master. -/
structure State.Alike (s s' : State) : Prop where
  cap : s.region.cap = s'.region.cap
  idx : ∀ a, s.region.idx a = s'.region.idx a
  cycleFn : ∀ a d, s.region.cycleFn a d = s'.region.cycleFn a d
  storage : ∀ j, Memory.read s.storage j = Memory.read s'.storage j
  fr : s.fr = s'.fr
  views : s.views = s'.views
  rsp : s.rsp = s'.rsp
  primRsp : s.primRsp = s'.primRsp
  commands : s.commands = s'.commands
  pos : s.pos = s'.pos
  responses : s.responses = s'.responses

/-- The normal end of a run (R158): every command has completed and `FR.valid` = 0. -/
def State.EndedNormally (s : State) : Prop := s.commands = [] ∧ s.fr.valid = 0#1

/-- The write a request makes, if it is a write the region covers: the index of the first byte, the width and the data. -/
def writeOf (r : Region) : Issue → Option (Nat × AccessWidth × Word)
  | .rp _ => none
  | .cmd q =>
    match decodeWord q.cmd with
    | .write w => (r.locate q.addr w.bytes).map fun i => (i, w, q.wdata)
    | .illegal _ | .read _ | .cycles _ _ => none

/-- What one request leaves at storage index `j` (R40, R52): byte `k` of the value at index `i + k`, and every other byte as
it was. -/
def byteAfter (r : Region) (x : Issue) (j : Nat) (b : Byte) : Byte :=
  match writeOf r x with
  | some (i, w, v) => if i ≤ j ∧ j < i + w.bytes then v.extractLsb' (8 * (j - i)) 8 else b
  | none => b

/-- The value of the last write to index `j` among a list of requests, or `b` if there is none (R52). -/
def lastWritten (r : Region) (j : Nat) : List Issue → Byte → Byte
  | [], b => b
  | x :: xs, b => lastWritten r j xs (byteAfter r x j b)

end Sys2Proof.Machine
end

