-- ==== Sys2Proof/Certificates/Slice0/Obligations.lean ====
section
/-! DEFINITION. The statements about the model. Each docstring names the rule it formalises. Where a statement needs a state
that no live view disturbs, it says so by `FreeOfWriters` (for a read) or `FreeOfViews` (for a write); in a run of the
controller both hold of every state, since no view is live between commands. -/

open Sys2Proof Sys2Proof.Machine

/-! ### Encoding -/

/-- Decode and encode agree, for every well-formed instruction of both ports and every operand. -/
def Obligations.DecodeOfEncodeIsTheInstruction : Prop :=
  ∀ i : Instr, i.wellFormed = true → decode (encode i) = .instr i

/-- The other direction on the master's port: encoding what a request decodes to gives back its word, its address and, for
a write, its data. No two legal words have one meaning. -/
def Obligations.EncodeOfDecodeIsTheRequest : Prop :=
  ∀ (r : Request) (i : Instr), decode (.cmd r) = .instr i →
    i.isCommand = true ∧ ∃ r' : Request, encode i = .cmd r' ∧ r'.cmd = r.cmd ∧ r'.addr = r.addr ∧
      ((∃ w, decodeWord r.cmd = .write w) → r'.wdata = r.wdata)

/-- R69's table: what each of the twelve command words is, with any address and any write data, and the three region-port
words, of which GETBYTES and GETBYTESMUT ignore the descriptor's bits, its two illegal codes too, and GETCYCLES the length. -/
def Obligations.TableWordsDecodeToTheirInstructions : Prop :=
  ∀ (a : Address) (d : Word) (n m : Nat) (desc : Descriptor) (e : BitVec 3), 1 ≤ n →
    decode (.cmd ⟨0x00#8, a, d⟩) = .instr (.read8 a) ∧ decode (.cmd ⟨0x01#8, a, d⟩) = .instr (.read16 a) ∧
    decode (.cmd ⟨0x02#8, a, d⟩) = .instr (.read32 a) ∧ decode (.cmd ⟨0x08#8, a, d⟩) = .instr (.write8 a d) ∧
    decode (.cmd ⟨0x09#8, a, d⟩) = .instr (.write16 a d) ∧ decode (.cmd ⟨0x0A#8, a, d⟩) = .instr (.write32 a d) ∧
    decode (.cmd ⟨0x10#8, a, d⟩) = .instr (.cyclesN8 a) ∧ decode (.cmd ⟨0x11#8, a, d⟩) = .instr (.cyclesN16 a) ∧
    decode (.cmd ⟨0x12#8, a, d⟩) = .instr (.cyclesN32 a) ∧ decode (.cmd ⟨0x14#8, a, d⟩) = .instr (.cyclesS8 a) ∧
    decode (.cmd ⟨0x15#8, a, d⟩) = .instr (.cyclesS16 a) ∧ decode (.cmd ⟨0x16#8, a, d⟩) = .instr (.cyclesS32 a) ∧
    decode (.rp ⟨0x00#8, a, n, e⟩) = .instr (.getBytes a n) ∧
    decode (.rp ⟨0x01#8, a, n, e⟩) = .instr (.getBytesMut a n) ∧
    decode (.rp ⟨0x02#8, a, m, desc.code⟩) = .instr (.getCycles a desc)

/-- R70: the illegal words are those of its six classes, counted; every one raises ILLEGAL_COMMAND; region-port words 0x03
to 0xFF are reserved. -/
def Obligations.TheOtherWordsAreIllegal : Prop :=
  (∀ c : BitVec 8, legal c = false ↔
    0x20#8 ≤ c ∨ (0x18#8 ≤ c ∧ c ≤ 0x1F#8) ∨
    c ∈ [0x03#8, 0x07#8, 0x0B#8, 0x0F#8] ∨ c ∈ [0x13#8, 0x17#8] ∨ c ∈ [0x04#8, 0x05#8, 0x06#8] ∨
    c ∈ [0x0C#8, 0x0D#8, 0x0E#8]) ∧
  ((List.range 256).countP fun c => legal (BitVec.ofNat 8 c)) = 12 ∧
  ((List.range 256).countP fun c => !legal (BitVec.ofNat 8 c)) = 244 ∧
  ((List.range 256).countP fun c => decide (0x20#8 ≤ BitVec.ofNat 8 c)) = 224 ∧
  ((List.range 256).countP fun c => decide (0x18#8 ≤ BitVec.ofNat 8 c ∧ BitVec.ofNat 8 c ≤ 0x1F#8)) = 8 ∧
  (∀ (r : Request) (rest : List Issue) (s : State), s.fr.valid = 0#1 → s.commands = .cmd r :: rest → legal r.cmd = false →
    ∃ t, step s = .fault (.illegalCommand t)) ∧
  (∀ q : RpRequest, 0x03#8 ≤ q.prim → decode (.rp q) = .reservedPrimitive q.prim)

/-- R84 and R66: the six descriptors have six distinct codes, no descriptor has a reserved code, and the fields read back;
GETCYCLES takes every one. That it does so on a stopped controller too is the model's reading (log entry 16, DEDUCED). -/
def Obligations.DescriptorsAreDistinct : Prop :=
  (combine .sequential .w8).code = 0b100#3 ∧ (combine .nonSequential .w8).code = 0b000#3 ∧
  (combine .sequential .w16).code = 0b101#3 ∧ (combine .nonSequential .w16).code = 0b001#3 ∧
  (combine .sequential .w32).code = 0b110#3 ∧ (combine .nonSequential .w32).code = 0b010#3 ∧
  (∀ d d' : Descriptor, d.code = d'.code → d = d') ∧
  (∀ d : Descriptor, Descriptor.ofCode d.code = some d ∧ d.code ≠ 0b011#3 ∧ d.code ≠ 0b111#3) ∧
  (∀ (d : Descriptor) (a : Address) (s : State),
    ∃ t, exec (.getCycles a d) s = .next t ∧ t.primRsp = some (.cycles (s.region.cycleFn a d)))

/-- The assembler, which the model holds at the level of tokens (log entry 14): what it emits is the named command, decodes to
itself, and a value wider than the command's width is an error. -/
def Obligations.AssemblerEmitsTheNamedCommand : Prop :=
  (∀ (l : AsmLine) (i : Instr), assemble l = some i →
    i.isCommand = true ∧ i.mnemonic = l.mnemonic ∧ decode (encode i) = .instr i) ∧
  (∀ (w : AccessWidth) (a v : Nat), a < 2 ^ 32 →
    assemble ⟨(writeInstr w 0 0).mnemonic, [a, v]⟩ =
      if v < 2 ^ (8 * w.bytes) then some (writeInstr w (BitVec.ofNat 32 a) (BitVec.ofNat 32 v)) else none) ∧
  (∀ (w : AccessWidth) (a : Nat), a < 2 ^ 32 →
    assemble ⟨(readInstr w 0).mnemonic, [a]⟩ = some (readInstr w (BitVec.ofNat 32 a)) ∧
    ∀ t : AccessType, assemble ⟨(cyclesInstr t w 0).mnemonic, [a]⟩ = some (cyclesInstr t w (BitVec.ofNat 32 a)))

/-! ### Reset, binding and the parameters -/

/-- R150: what reset leaves, from any state, stopped or not, that commands have a step again, and that without a reset a
fatal fault stays recorded and no command has a step. -/
def Obligations.ResetLeavesTheResetState : Prop :=
  ∀ s : State,
    (applyReset s).storage = s.region.initMem ∧
    (applyReset s).fr = { valid := 0#1, code := 0#4, cmd := 0#8, addr := 0#32, len := 0#3, prim := 3#2 } ∧
    (applyReset s).views = [] ∧ (applyReset s).rsp = { rdata := none, cyc := none, werr := none } ∧
    (applyReset s).region = s.region ∧
    (∀ (i : Instr) (t : State), exec i (applyReset s) ≠ .fault (.stopped t)) ∧
    (s.fr.valid = 1#1 → (∀ t, step s = .next t → t.fr = s.fr) ∧ (∀ f, step s = .fault f → f.state.fr = s.fr) ∧
      ∀ (i : Instr) (t : State), i.isCommand = true → exec i s ≠ .next t)

/-- The invariant holds at reset, and just after binding any region that the check accepts. -/
def Obligations.InvariantHoldsAtReset : Prop :=
  State.reset.Inv ∧ ∀ (r : Region) (t : State), State.boot r = .next t → t.Inv

/-- R152: what is bound satisfies `REGION_WF` and is loaded with `INIT_MEM`; every linear region of the address space with
canonical contents is accepted. -/
def Obligations.BindingNeedsAWellFormedRegion : Prop :=
  (∀ (r : Region) (t : State), State.boot r = .next t →
    RegionWf r.idx r.cap ∧ t.region = r ∧ t.storage = r.initMem ∧ t.fr = FaultRecord.clear ∧ t.views = []) ∧
  (∀ (base cap : Nat) (cyc : CycleTable) (m : Memory), base + cap ≤ 2 ^ 32 → Memory.wf m → Memory.within m cap →
    State.boot (Region.linear base cap cyc m) = .next (State.resetOf (Region.linear base cap cyc m))) ∧
  (∀ r : Region, r.check = false → State.boot r = .refused .regionIllFormed)

/-- R7, R23: the plain data loses no value of the OPEN parameters: for every `CAP`, every `IDX` with `REGION_WF`, every total
`CYCLE_FN` and every `INIT_MEM` there is a region of the model that has them, and it is accepted at binding. -/
def Obligations.EveryParameterValueHasARegion : Prop :=
  ∀ (cap : Nat) (idx : Address → Option Nat) (cyc : Address → Descriptor → Nat) (init : Nat → Byte), RegionWf idx cap →
    ∃ r : Region, r.check = true ∧ r.cap = cap ∧ (∀ a, r.idx a = idx a) ∧ (∀ a d, r.cycleFn a d = cyc a d) ∧
      ∀ k, k < cap → Memory.read r.initMem k = init k

/-- R24: `covers` is its formula, and under `REGION_WF` a covered range maps to consecutive storage bytes. -/
def Obligations.CoveredRangeIsConsecutive : Prop :=
  ∀ (r : Region) (a : Address) (n : Nat),
    (r.covers a n = true ↔ ∃ i, a.toNat + n ≤ 2 ^ 32 ∧ r.idx a = some i ∧ i + n ≤ r.cap) ∧
    (RegionWf r.idx r.cap → 1 ≤ n → ∀ i, r.Covers a n i → ∀ k, k < n → r.idx (a + BitVec.ofNat 32 k) = some (i + k))

/-! ### Transfers -/

/-- R101: READ8, its word, its result with all it leaves unchanged, and its only exception. -/
def Obligations.Read8ReturnsTheByte : Prop :=
  ∀ (a : Address) (d : Word) (s : State), s.fr.valid = 0#1 →
    decode (.cmd ⟨0x00#8, a, d⟩) = .instr (.read8 a) ∧
    (∀ i, s.region.Covers a 1 i → s.FreeOfWriters i 1 → exec (.read8 a) s =
      .next (s.answered ⟨some ((Memory.read s.storage i).setWidth 32), none, none⟩)) ∧
    ((∀ i, ¬s.region.Covers a 1 i) → exec (.read8 a) s =
      .fault (.rangeFault (s.faulted ⟨1#1, 1#4, 0x00#8, a, 1#3, 0#2⟩)))

/-- R102: READ16, byte 1 above byte 0, zero-extended, at every address, aligned or not. -/
def Obligations.Read16ReturnsTheHalfWord : Prop :=
  ∀ (a : Address) (d : Word) (s : State), s.fr.valid = 0#1 →
    decode (.cmd ⟨0x01#8, a, d⟩) = .instr (.read16 a) ∧
    (∀ i, s.region.Covers a 2 i → s.FreeOfWriters i 2 → exec (.read16 a) s =
      .next (s.answered ⟨some ((Memory.read s.storage (i + 1) ++ Memory.read s.storage i).setWidth 32), none, none⟩)) ∧
    ((∀ i, ¬s.region.Covers a 2 i) → exec (.read16 a) s =
      .fault (.rangeFault (s.faulted ⟨1#1, 1#4, 0x01#8, a, 2#3, 0#2⟩))) ∧
    (a = 0xFFFFFFFF#32 → ∀ i, ¬s.region.Covers a 2 i)

/-- R103: READ32. -/
def Obligations.Read32ReturnsTheWord : Prop :=
  ∀ (a : Address) (d : Word) (s : State), s.fr.valid = 0#1 →
    decode (.cmd ⟨0x02#8, a, d⟩) = .instr (.read32 a) ∧
    (∀ i, s.region.Covers a 4 i → s.FreeOfWriters i 4 → exec (.read32 a) s =
      .next (s.answered ⟨some (Memory.read s.storage (i + 3) ++ Memory.read s.storage (i + 2) ++
        Memory.read s.storage (i + 1) ++ Memory.read s.storage i), none, none⟩)) ∧
    ((∀ i, ¬s.region.Covers a 4 i) → exec (.read32 a) s =
      .fault (.rangeFault (s.faulted ⟨1#1, 1#4, 0x02#8, a, 4#3, 0#2⟩))) ∧
    (0xFFFFFFFD#32 ≤ a → ∀ i, ¬s.region.Covers a 4 i)

/-- R104: WRITE8. The data's upper bits do not matter, and every other byte of storage reads as before. -/
def Obligations.Write8StoresTheByte : Prop :=
  ∀ (a : Address) (d : Word) (s : State), s.fr.valid = 0#1 →
    decode (.cmd ⟨0x08#8, a, d⟩) = .instr (.write8 a d) ∧
    (∀ i, s.region.Covers a 1 i → s.FreeOfViews i 1 → ∃ m, exec (.write8 a d) s =
      .next { s.answered ⟨none, none, some 0#1⟩ with storage := m } ∧
      Memory.read m i = d.extractLsb' 0 8 ∧ ∀ j, j ≠ i → Memory.read m j = Memory.read s.storage j) ∧
    ((∀ i, ¬s.region.Covers a 1 i) → exec (.write8 a d) s =
      .fault (.rangeFault (s.faulted ⟨1#1, 1#4, 0x08#8, a, 1#3, 1#2⟩)))

/-- R105: WRITE16. A range that is half covered writes neither byte. -/
def Obligations.Write16StoresTheHalfWord : Prop :=
  ∀ (a : Address) (d : Word) (s : State), s.fr.valid = 0#1 →
    decode (.cmd ⟨0x09#8, a, d⟩) = .instr (.write16 a d) ∧
    (∀ i, s.region.Covers a 2 i → s.FreeOfViews i 2 → ∃ m, exec (.write16 a d) s =
      .next { s.answered ⟨none, none, some 0#1⟩ with storage := m } ∧
      Memory.read m i = d.extractLsb' 0 8 ∧ Memory.read m (i + 1) = d.extractLsb' 8 8 ∧
      ∀ j, j ≠ i → j ≠ i + 1 → Memory.read m j = Memory.read s.storage j) ∧
    ((∀ i, ¬s.region.Covers a 2 i) → exec (.write16 a d) s =
      .fault (.rangeFault (s.faulted ⟨1#1, 1#4, 0x09#8, a, 2#3, 1#2⟩)))

/-- R106: WRITE32. -/
def Obligations.Write32StoresTheWord : Prop :=
  ∀ (a : Address) (d : Word) (s : State), s.fr.valid = 0#1 →
    decode (.cmd ⟨0x0A#8, a, d⟩) = .instr (.write32 a d) ∧
    (∀ i, s.region.Covers a 4 i → s.FreeOfViews i 4 → ∃ m, exec (.write32 a d) s =
      .next { s.answered ⟨none, none, some 0#1⟩ with storage := m } ∧
      Memory.read m i = d.extractLsb' 0 8 ∧ Memory.read m (i + 1) = d.extractLsb' 8 8 ∧
      Memory.read m (i + 2) = d.extractLsb' 16 8 ∧ Memory.read m (i + 3) = d.extractLsb' 24 8 ∧
      ∀ j, j ≠ i → j ≠ i + 1 → j ≠ i + 2 → j ≠ i + 3 → Memory.read m j = Memory.read s.storage j) ∧
    ((∀ i, ¬s.region.Covers a 4 i) → exec (.write32 a d) s =
      .fault (.rangeFault (s.faulted ⟨1#1, 1#4, 0x0A#8, a, 4#3, 1#2⟩))) ∧
    (0xFFFFFFFD#32 ≤ a → ∀ i, ¬s.region.Covers a 4 i)

/-- R53: the round-trip law at every covered address, for the three widths and every value; at any other address both
commands take the fatal path. -/
def Obligations.ReadAfterWriteReturnsTheValue : Prop :=
  ∀ (w : AccessWidth) (a : Address) (v : Word) (s : State), s.fr.valid = 0#1 → v.toNat < 2 ^ (8 * w.bytes) →
    (∀ i, s.region.Covers a w.bytes i → s.FreeOfViews i w.bytes →
      ∃ t u, exec (writeInstr w a v) s = .next t ∧ exec (readInstr w a) t = .next u ∧ u.rsp.rdata = some v) ∧
    ((∀ i, ¬s.region.Covers a w.bytes i) →
      (∃ t, exec (writeInstr w a v) s = .fault (.rangeFault t)) ∧ ∃ t, exec (readInstr w a) s = .fault (.rangeFault t))

/-- R41: the little-endian law at every address of a well-formed region. -/
def Obligations.LittleEndianBytesOfDeadbeef : Prop :=
  ∀ (a : Address) (i : Nat) (s : State), s.fr.valid = 0#1 → RegionWf s.region.idx s.region.cap → s.region.Covers a 4 i →
    s.FreeOfViews i 4 →
    ∃ t, exec (.write32 a 0xDEADBEEF#32) s = .next t ∧
      (∃ u, exec (.read8 a) t = .next u ∧ u.rsp.rdata = some 0xEF#32) ∧
      (∃ u, exec (.read8 (a + 1#32)) t = .next u ∧ u.rsp.rdata = some 0xBE#32) ∧
      (∃ u, exec (.read8 (a + 2#32)) t = .next u ∧ u.rsp.rdata = some 0xAD#32) ∧
      (∃ u, exec (.read8 (a + 3#32)) t = .next u ∧ u.rsp.rdata = some 0xDE#32)

/-- R42: a half-word read inside a word just written sees the bytes storage holds, whatever width wrote them. -/
def Obligations.MixedWidthReadSeesTheBytes : Prop :=
  ∀ (a : Address) (v : Word) (i k : Nat) (s : State), s.fr.valid = 0#1 → RegionWf s.region.idx s.region.cap →
    s.region.Covers a 4 i → s.FreeOfViews i 4 → k ≤ 2 →
    ∃ t u, exec (.write32 a v) s = .next t ∧ exec (.read16 (a + BitVec.ofNat 32 k)) t = .next u ∧
      u.rsp.rdata = some ((v.extractLsb' (8 * k) 16).setWidth 32)

/-- R51: a write of any width at one address is seen by a read of any width at any other address whose range reaches the
same storage bytes: byte by byte, the read gives what the write stored there, and elsewhere what storage held. -/
def Obligations.MirroredAddressesNameOneByte : Prop :=
  ∀ (w w' : AccessWidth) (a a' : Address) (v : Word) (i i' : Nat) (s : State), s.fr.valid = 0#1 →
    s.region.Covers a w.bytes i → s.region.Covers a' w'.bytes i' → s.FreeOfViews i w.bytes →
    ∃ t u r, exec (writeInstr w a v) s = .next t ∧ exec (readInstr w' a') t = .next u ∧ u.rsp.rdata = some r ∧
      ∀ k, k < w'.bytes → r.extractLsb' (8 * k) 8 =
        if i ≤ i' + k ∧ i' + k < i + w.bytes then v.extractLsb' (8 * (i' + k - i)) 8 else Memory.read s.storage (i' + k)

/-- R50: a range past the top of the address space takes the fatal path, whatever `IDX` is, and is never wrapped; at the top
addresses a range that ends exactly at the top is covered exactly when `IDX` covers it. -/
def Obligations.RangesDoNotWrap : Prop :=
  (∀ (w : AccessWidth) (a : Address) (v : Word) (s : State), s.fr.valid = 0#1 → 2 ^ 32 < a.toNat + w.bytes →
    (∃ t, exec (readInstr w a) s = .fault (.rangeFault t)) ∧ ∃ t, exec (writeInstr w a v) s = .fault (.rangeFault t)) ∧
  (∀ s : State, s.fr.valid = 0#1 →
    (∃ t, exec (.read32 0xFFFFFFFF#32) s = .fault (.rangeFault t)) ∧
    (∃ t, exec (.read32 0xFFFFFFFE#32) s = .fault (.rangeFault t)) ∧
    (∃ t, exec (.read32 0xFFFFFFFD#32) s = .fault (.rangeFault t)) ∧
    ∃ t, exec (.read16 0xFFFFFFFF#32) s = .fault (.rangeFault t)) ∧
  (∀ r : Region,
    (r.covers 0xFFFFFFFF#32 1 = true ↔ ∃ i, r.idx 0xFFFFFFFF#32 = some i ∧ i + 1 ≤ r.cap) ∧
    (r.covers 0xFFFFFFFE#32 2 = true ↔ ∃ i, r.idx 0xFFFFFFFE#32 = some i ∧ i + 2 ≤ r.cap) ∧
    (r.covers 0xFFFFFFFC#32 4 = true ↔ ∃ i, r.idx 0xFFFFFFFC#32 = some i ∧ i + 4 ≤ r.cap))

/-- R132: when RANGE_FAULT is raised, by the six transfers and by no cycle query, and what it records. -/
def Obligations.RangeFaultIffNotCovered : Prop :=
  ∀ (w : AccessWidth) (a : Address) (v : Word) (s : State), s.fr.valid = 0#1 →
    ((∃ t, exec (readInstr w a) s = .fault (.rangeFault t)) ↔ ∀ i, ¬s.region.Covers a w.bytes i) ∧
    ((∃ t, exec (writeInstr w a v) s = .fault (.rangeFault t)) ↔ ∀ i, ¬s.region.Covers a w.bytes i) ∧
    (∀ t, exec (readInstr w a) s = .fault (.rangeFault t) →
      t.fr = ⟨1#1, 1#4, (readInstr w a).word, a, BitVec.ofNat 3 w.bytes, 0#2⟩) ∧
    (∀ t, exec (writeInstr w a v) s = .fault (.rangeFault t) →
      t.fr = ⟨1#1, 1#4, (writeInstr w a v).word, a, BitVec.ofNat 3 w.bytes, 1#2⟩) ∧
    ∀ (ty : AccessType) (t : State), exec (cyclesInstr ty w a) s ≠ .fault (.rangeFault t)

/-- R107, R135: a write that completes answers status 0, has written all its bytes, and has recorded nothing. -/
def Obligations.CompletedWriteHasStatusZero : Prop :=
  ∀ (w : AccessWidth) (a : Address) (v : Word) (s t : State), exec (writeInstr w a v) s = .next t →
    t.rsp = ⟨none, none, some 0#1⟩ ∧ t.fr = s.fr ∧
    ∃ i, s.region.Covers a w.bytes i ∧ ∀ k, k < w.bytes → Memory.read t.storage (i + k) = v.extractLsb' (8 * k) 8

/-- R65, D9: the data bits above the width of a write are ignored. -/
def Obligations.NarrowWriteIgnoresUpperBits : Prop :=
  ∀ (w : AccessWidth) (a : Address) (v v' : Word) (s : State),
    v.extractLsb' 0 (8 * w.bytes) = v'.extractLsb' 0 (8 * w.bytes) →
    exec (writeInstr w a v) s = exec (writeInstr w a v') s

/-- R47: reads and queries leave storage and the fault record alone, and any command given twice leaves the state it left
the first time. The premise on storage is the invariant that StepKeepsTheInvariant keeps. -/
def Obligations.RepeatedCommandChangesNothing : Prop :=
  ∀ (i : Instr) (s t : State), i.isCommand = true → Memory.wf s.storage → exec i s = .next t →
    exec i t = .next t ∧ t.fr = s.fr ∧
    ((∀ w a v, i ≠ writeInstr w a v) → t.storage = s.storage)

/-! ### The cycle query -/

/-- R120 to R126: each query answers the cost of its descriptor at its address and changes nothing else; it goes to the
region as the word carries it; no address makes it fault. -/
def Obligations.CycleQueryAnswersTheCost : Prop :=
  ∀ (a : Address) (d : Word) (s : State), s.fr.valid = 0#1 →
    (exec (.cyclesN8 a) s = .next (s.answered ⟨none, some (s.region.cycleFn a ⟨.nonSequential, .w8⟩), none⟩) ∧
      decode (.cmd ⟨0x10#8, a, d⟩) = .instr (.cyclesN8 a)) ∧
    (exec (.cyclesN16 a) s = .next (s.answered ⟨none, some (s.region.cycleFn a ⟨.nonSequential, .w16⟩), none⟩) ∧
      decode (.cmd ⟨0x11#8, a, d⟩) = .instr (.cyclesN16 a)) ∧
    (exec (.cyclesN32 a) s = .next (s.answered ⟨none, some (s.region.cycleFn a ⟨.nonSequential, .w32⟩), none⟩) ∧
      decode (.cmd ⟨0x12#8, a, d⟩) = .instr (.cyclesN32 a)) ∧
    (exec (.cyclesS8 a) s = .next (s.answered ⟨none, some (s.region.cycleFn a ⟨.sequential, .w8⟩), none⟩) ∧
      decode (.cmd ⟨0x14#8, a, d⟩) = .instr (.cyclesS8 a)) ∧
    (exec (.cyclesS16 a) s = .next (s.answered ⟨none, some (s.region.cycleFn a ⟨.sequential, .w16⟩), none⟩) ∧
      decode (.cmd ⟨0x15#8, a, d⟩) = .instr (.cyclesS16 a)) ∧
    (exec (.cyclesS32 a) s = .next (s.answered ⟨none, some (s.region.cycleFn a ⟨.sequential, .w32⟩), none⟩) ∧
      decode (.cmd ⟨0x16#8, a, d⟩) = .instr (.cyclesS32 a)) ∧
    (∀ (c : BitVec 8) (t : AccessType) (w : AccessWidth), decodeWord c = .cycles t w →
      (combine t w).code = c.extractLsb' 0 3) ∧
    decode (.cmd ⟨0x13#8, a, d⟩) = .illegalCommand 0x13#8 ∧ decode (.cmd ⟨0x17#8, a, d⟩) = .illegalCommand 0x17#8

/-- R127: after a query every command does what it would have done without it, and the same query gives the same answer. -/
def Obligations.CycleQueryIsPure : Prop :=
  ∀ (ty : AccessType) (w : AccessWidth) (a : Address) (s t : State), s.views = [] →
    exec (cyclesInstr ty w a) s = .next t →
    t.storage = s.storage ∧ t.fr = s.fr ∧
    exec (cyclesInstr ty w a) t = .next t ∧
    ∀ i : Instr, i.isCommand = true → exec i t = exec i s

/-- R92: the answer depends on the address, the descriptor and the region's timing function only, not on storage, on earlier
commands, or on anything else in the state. -/
def Obligations.CycleCostDependsOnTimingOnly : Prop :=
  ∀ (s s' : State) (ty : AccessType) (w : AccessWidth) (a : Address), s.fr.valid = 0#1 → s'.fr.valid = 0#1 →
    (∀ b d, s.region.cycleFn b d = s'.region.cycleFn b d) →
    ∃ t t' u u' n, exec (cyclesInstr ty w a) s = .next t ∧ exec (cyclesInstr ty w a) s' = .next t' ∧
      t.rsp.cyc = some n ∧ t'.rsp.cyc = some n ∧
      exec (.getCycles a (combine ty w)) s = .next u ∧ exec (.getCycles a (combine ty w)) s' = .next u' ∧
      u.primRsp = some (.cycles n) ∧ u'.primRsp = some (.cycles n)

/-! ### The region primitives issued directly -/

/-- R86: GETBYTES, granted, out of range, aliased, and of length 0. Where no command asks, FR.cmd is the free value of log
entry 8 (R138 records `req.cmd`, which such a request has not), and so is FR.len for a length that 3 bits do not hold. That a
granted view leaves the response port as it was is the model's choice (log entry 18). -/
def Obligations.GetBytesGrantsAnImmutableView : Prop :=
  ∀ (a : Address) (n : Nat) (s : State), s.fr.valid = 0#1 →
    (∀ i, 1 ≤ n → s.region.Covers a n i → s.FreeOfWriters i n → exec (.getBytes a n) s =
      .next { s with views := s.views ++ [⟨.imm, i, n⟩], primRsp := some (.view ⟨.imm, i, n⟩) }) ∧
    (1 ≤ n → (∀ i, ¬s.region.Covers a n i) → ∃ t, exec (.getBytes a n) s = .fault (.rangeFault t) ∧
      t.storage = s.storage ∧ t.views = s.views ∧ t.fr.valid = 1#1 ∧ t.fr.code = 1#4 ∧ t.fr.addr = a ∧ t.fr.prim = 0#2 ∧
      (n < 8 → t.fr.len = BitVec.ofNat 3 n)) ∧
    (∀ i, 1 ≤ n → s.region.Covers a n i → ¬s.FreeOfWriters i n → ∃ t, exec (.getBytes a n) s = .fault (.aliasViolation t) ∧
      t.storage = s.storage ∧ t.views = s.views ∧ t.fr.valid = 1#1 ∧ t.fr.code = 3#4 ∧ t.fr.addr = a ∧ t.fr.prim = 0#2 ∧
      (n < 8 → t.fr.len = BitVec.ofNat 3 n)) ∧
    exec (.getBytes a 0) s = .refused .zeroLength

/-- R88: GETBYTESMUT, the same contract, exclusive: any live view that overlaps breaks it. Acquiring the view changes no
byte; a write through it changes one byte and no other. FR.cmd and FR.len as for GETBYTES (log entry 8). That a granted view
leaves the response port as it was is the model's choice (log entry 18). -/
def Obligations.GetBytesMutGrantsAnExclusiveView : Prop :=
  ∀ (a : Address) (n : Nat) (s : State), s.fr.valid = 0#1 →
    (∀ i, 1 ≤ n → s.region.Covers a n i → s.FreeOfViews i n → ∃ t, exec (.getBytesMut a n) s = .next t ∧
      t = { s with views := s.views ++ [⟨.mut, i, n⟩], primRsp := some (.view ⟨.mut, i, n⟩) } ∧
      ∀ (k : Nat) (b : Byte), k < n → ∃ u, t.viewWrite ⟨.mut, i, n⟩ k b = some u ∧
        u = { t with storage := u.storage } ∧ Memory.read u.storage (i + k) = b ∧
        ∀ j, j ≠ i + k → Memory.read u.storage j = Memory.read s.storage j) ∧
    (1 ≤ n → (∀ i, ¬s.region.Covers a n i) → ∃ t, exec (.getBytesMut a n) s = .fault (.rangeFault t) ∧
      t.storage = s.storage ∧ t.views = s.views ∧ t.fr.valid = 1#1 ∧ t.fr.code = 1#4 ∧ t.fr.addr = a ∧ t.fr.prim = 1#2 ∧
      (n < 8 → t.fr.len = BitVec.ofNat 3 n)) ∧
    (∀ i, 1 ≤ n → s.region.Covers a n i → ¬s.FreeOfViews i n → ∃ t, exec (.getBytesMut a n) s = .fault (.aliasViolation t) ∧
      t.storage = s.storage ∧ t.views = s.views ∧ t.fr.valid = 1#1 ∧ t.fr.code = 3#4 ∧ t.fr.addr = a ∧ t.fr.prim = 1#2 ∧
      (n < 8 → t.fr.len = BitVec.ofNat 3 n)) ∧
    exec (.getBytesMut a 0) s = .refused .zeroLength

/-- R91: GETCYCLES answers the region's timing function and changes nothing, in every state: it reads neither `S` nor `V` nor
`FR`, and raises nothing. That it answers on a stopped controller too is the model's reading (log entry 16, DEDUCED), and that
the response port stays as it was is the model's choice (log entry 18). -/
def Obligations.GetCyclesAnswersTheTimingFunction : Prop :=
  ∀ (a : Address) (d : Descriptor) (s : State),
    exec (.getCycles a d) s = .next { s with primRsp := some (.cycles (s.region.cycleFn a d)) }

/-- R87: the view-length law: a view returned has exactly `n` elements, and element `k` is `byte(a + k)`. -/
def Obligations.ViewHasExactlyItsLength : Prop :=
  ∀ (i : Instr) (a : Address) (n : Nat) (s t : State), RegionWf s.region.idx s.region.cap →
    (i = .getBytes a n ∨ i = .getBytesMut a n) → exec i s = .next t →
    ∃ v, t.primRsp = some (.view v) ∧ (viewBytes t.storage v).length = n ∧
      ∀ k, k < n → (viewBytes t.storage v)[k]? = t.byteAt (a + BitVec.ofNat 32 k)

/-- R67, R86 and I14, I15: what a model of the region port alone refuses. The illegal descriptors are refused by inference (log
entry 10), and a stopped controller's region refuses the same requests by the model's reading (log entry 16). -/
def Obligations.RegionPortRefusals : Prop :=
  ∀ (q : RpRequest) (rest : List Issue) (s : State), s.commands = .rp q :: rest →
    (0x03#8 ≤ q.prim → step s = .refused (.reservedPrimitive q.prim)) ∧
    (q.prim = 0x00#8 ∨ q.prim = 0x01#8 → q.len = 0 → step s = .refused .zeroLength) ∧
    (q.prim = 0x02#8 → q.desc = 0b011#3 ∨ q.desc = 0b111#3 → step s = .refused (.illegalDescriptor q.desc))

/-! ### Faults -/

/-- R133: ILLEGAL_COMMAND is raised at decode, before any primitive is asked, and records the word and the address. -/
def Obligations.IllegalCommandIsRaisedAtDecode : Prop :=
  ∀ (r : Request) (rest : List Issue) (s : State), s.fr.valid = 0#1 → s.commands = .cmd r :: rest → legal r.cmd = false →
    step s = .fault (.illegalCommand (s.faulted ⟨1#1, 2#4, r.cmd, r.addr, 0#3, 3#2⟩))

/-- R134: a transfer whose view would break exclusivity raises ALIAS_VIOLATION. -/
def Obligations.OverlappingViewIsAnAliasViolation : Prop :=
  ∀ (w : AccessWidth) (a : Address) (v : Word) (i : Nat) (s : State), s.fr.valid = 0#1 → s.region.Covers a w.bytes i →
    (¬s.FreeOfWriters i w.bytes → exec (readInstr w a) s = .fault (.aliasViolation
      (s.faulted ⟨1#1, 3#4, (readInstr w a).word, a, BitVec.ofNat 3 w.bytes, 0#2⟩))) ∧
    (¬s.FreeOfViews i w.bytes → exec (writeInstr w a v) s = .fault (.aliasViolation
      (s.faulted ⟨1#1, 3#4, (writeInstr w a v).word, a, BitVec.ofNat 3 w.bytes, 1#2⟩)))

/-- R137: one event a command, in the order decode, range, alias, status: whatever the address and the live views are, an
illegal word is ILLEGAL_COMMAND; whatever the live views are, an uncovered range is RANGE_FAULT; then comes
ALIAS_VIOLATION; a write past all three answers its status. A stopped controller raises nothing. -/
def Obligations.FaultsHaveTheirPriority : Prop :=
  ∀ (r : Request) (rest : List Issue) (s : State), s.commands = .cmd r :: rest →
    (s.fr.valid = 1#1 → step s = .fault (.stopped s)) ∧
    (s.fr.valid = 0#1 → legal r.cmd = false → ∃ t, step s = .fault (.illegalCommand t)) ∧
    (∀ w, s.fr.valid = 0#1 → decodeWord r.cmd = .read w ∨ decodeWord r.cmd = .write w →
      (∀ i, ¬s.region.Covers r.addr w.bytes i) → ∃ t, step s = .fault (.rangeFault t)) ∧
    (∀ w i, s.fr.valid = 0#1 → decodeWord r.cmd = .read w → s.region.Covers r.addr w.bytes i →
      ¬s.FreeOfWriters i w.bytes → ∃ t, step s = .fault (.aliasViolation t)) ∧
    (∀ w i, s.fr.valid = 0#1 → decodeWord r.cmd = .write w → s.region.Covers r.addr w.bytes i →
      (¬s.FreeOfViews i w.bytes → ∃ t, step s = .fault (.aliasViolation t)) ∧
      (s.FreeOfViews i w.bytes → ∃ t, step s = .next t ∧ t.rsp.werr = some 0#1))

/-- R139: fatal faults are precise: the faulting request has taken no effect, and every request before it has taken its own.
A fault that is entered writes the record and produces no response field; nothing else of the state differs (`draws` is the
model's own counter, log entry 8). -/
def Obligations.FaultsArePrecise : Prop :=
  ∀ (s : State) (f : Fault), step s = .fault f →
    f.state.storage = s.storage ∧ f.state.views = s.views ∧ f.state.region = s.region ∧
    f.state.commands = s.commands ∧ f.state.pos = s.pos ∧ f.state.responses = s.responses ∧
    (f.state = s ∨ ∃ fr, fr.valid = 1#1 ∧ f.state = { s.faulted fr with draws := f.state.draws })

/-- R140 with log entry 16: on a stopped controller no command has a step and there is no idle step, `S` and `FR` do not change
whatever is asked, and reset clears it. That GETBYTES and GETBYTESMUT issued directly have no step either, while GETCYCLES has
one (R91), is the model's reading (log entry 16, DEDUCED); that no view is written through is R140's `S` does not change. -/
def Obligations.StoppedControllerHasNoStep : Prop :=
  ∀ s : State, s.fr.valid = 1#1 →
    ((∀ q rest, s.commands ≠ .rp q :: rest) → step s = .fault (.stopped s)) ∧
    (∀ i : Instr, (∀ a d, i ≠ .getCycles a d) → exec i s = .fault (.stopped s)) ∧
    (∀ t, step s = .next t → t.storage = s.storage ∧ t.fr = s.fr ∧ t.responses = s.responses) ∧
    (∀ f, step s = .fault f → f = .stopped s) ∧
    (∀ v k b, s.viewWrite v k b = none) ∧ (applyReset s).fr.valid = 0#1

/-- R29, R131: the fault that stops a run of commands leaves a legal record of the faulting command; the machine that stops
is sound. -/
def Obligations.FaultRecordsTheCommand : Prop :=
  ∀ (s : State) (f : Fault), s.Inv → step s = .fault f →
    f.state.Sound ∧ f.state.fr.valid = 1#1 ∧
    ∀ (r : Request) (rest : List Issue), s.commands = .cmd r :: rest →
      f.state.fr.OfCommand ∧ f.state.fr.cmd = r.cmd ∧ f.state.fr.addr = r.addr

/-- R29: a step that answers a next state leaves the fault record as it was. -/
def Obligations.CompletedStepKeepsTheFaultRecord : Prop :=
  ∀ s t : State, step s = .next t → t.fr = s.fr

/-- R9, I16: a response field that a command did not produce holds no value, and reading it is a fault. -/
def Obligations.UnproducedResponseFieldIsAFault : Prop :=
  (∀ (w : AccessWidth) (a : Address) (s t : State), exec (readInstr w a) s = .next t →
    (∃ v, t.readRdata = .next v) ∧ t.readCyc = .fault (.noResponseField t) ∧ t.readWerr = .fault (.noResponseField t)) ∧
  (∀ (w : AccessWidth) (a : Address) (v : Word) (s t : State), exec (writeInstr w a v) s = .next t →
    t.readWerr = .next 0#1 ∧ t.readRdata = .fault (.noResponseField t) ∧ t.readCyc = .fault (.noResponseField t)) ∧
  (∀ (ty : AccessType) (w : AccessWidth) (a : Address) (s t : State), exec (cyclesInstr ty w a) s = .next t →
    t.readCyc = .next (s.region.cycleFn a (combine ty w)) ∧ t.readRdata = .fault (.noResponseField t) ∧
    t.readWerr = .fault (.noResponseField t)) ∧
  (∀ s : State, (applyReset s).readRdata = .fault (.noResponseField (applyReset s)) ∧
    (applyReset s).readCyc = .fault (.noResponseField (applyReset s)) ∧
    (applyReset s).readWerr = .fault (.noResponseField (applyReset s)))

/-! ### The step, its invariants, and runs -/

/-- A step runs the decoded instruction: when the next request decodes to an instruction, the step is that instruction, and
when it completes the master's position moves on by one and a command's response joins the sequence. What the instruction of
a primitive issued directly does on a stopped controller is the model's reading (log entry 16). -/
def Obligations.StepRunsTheDecodedInstruction : Prop :=
  ∀ (x : Issue) (rest : List Issue) (i : Instr) (s : State), s.commands = x :: rest → decode x = .instr i →
    step s = match exec i s with
      | .next t => .next { t with
          commands := rest
          pos := s.pos + 1
          responses := match x with | .cmd _ => s.responses ++ [t.rsp] | .rp _ => s.responses }
      | .fault f => .fault f
      | .refused r => .refused r

/-- With no request left the controller is idle and holds its state (R148; log entry 4). -/
def Obligations.ControllerWithoutRequestIsIdle : Prop :=
  ∀ s : State, s.fr.valid = 0#1 → s.commands = [] → step s = .next s

/-- The host's word is the next request: the step after `withFetchWord` runs what `decodeTableWord` decodes. -/
def Obligations.TableWordIsTheNextRequest : Prop :=
  ∀ (nbits w : Nat) (i : Instr) (s t : State), s.fr.valid = 0#1 → decodeTableWord nbits w = some i →
    exec i (s.withFetchWord nbits w) = .next t →
    step (s.withFetchWord nbits w) =
      .next { t with commands := s.commands.tail, pos := s.pos + 1, responses := s.responses ++ [t.rsp] }

/-- The invariant that every step keeps: storage stays contents of `CAP` bytes in canonical form, views stay exclusive and in
storage, the region stays well-formed, the responses stay single fields, the fault record stays clear. -/
def Obligations.StepKeepsTheInvariant : Prop :=
  ∀ s t : State, s.Inv → step s = .next t → t.Inv

/-- R21: no command changes the configuration, whether it completes or faults. -/
def Obligations.ConfigurationNeverChanges : Prop :=
  (∀ s t : State, step s = .next t → t.region = s.region) ∧
  (∀ (s : State) (f : Fault), step s = .fault f → f.state.region = s.region) ∧
  (∀ (i : Instr) (s t : State), exec i s = .next t → t.region = s.region)

/-- R90, R30: in a run of the controller no view is live between commands, and ALIAS_VIOLATION is never raised. -/
def Obligations.ControllerRunHoldsNoView : Prop :=
  ∀ s : State, s.ControllerRun →
    (∀ t, step s = .next t → t.ControllerRun) ∧ ∀ t, step s ≠ .fault (.aliasViolation t)

/-- R89: at every moment at most one live view holds a byte that a mutable view holds, whatever requests are issued at
either port: true of the empty set that reset leaves, and kept by every step. -/
def Obligations.ViewsStayExclusive : Prop :=
  (∀ s : State, (applyReset s).views = []) ∧
  ∀ s t : State,
    (s.views.Pairwise fun u v => u.kind = .mut ∨ v.kind = .mut →
      ∀ j, ¬((u.start ≤ j ∧ j < u.start + u.len) ∧ (v.start ≤ j ∧ j < v.start + v.len))) →
    step s = .next t →
    t.views.Pairwise fun u v => u.kind = .mut ∨ v.kind = .mut →
      ∀ j, ¬((u.start ≤ j ∧ j < u.start + u.len) ∧ (v.start ≤ j ∧ j < v.start + v.len))

/-- R27: a step either is idle or completes exactly the next request. -/
def Obligations.PositionMovesByOneRequest : Prop :=
  ∀ s t : State, step s = .next t →
    (s.commands = [] ∧ t = s) ∨ (∃ x rest, s.commands = x :: rest ∧ t.commands = rest ∧ t.pos = s.pos + 1)

/-- R85: regions with the same `CAP`, `IDX`, `CYCLE_FN` and `S` cannot be told apart through the controller, however they
are written down: a step of one is matched by a step of the other, with the same responses, and so is a fault, with the same
record of a command. -/
def Obligations.EqualRegionsAreIndistinguishable : Prop :=
  ∀ s s' : State, s.Alike s' →
    (∀ t, step s = .next t → ∃ t', step s' = .next t' ∧ t.Alike t') ∧
    (∀ f, step s = .fault f → ∃ f', step s' = .fault f' ∧ f'.state.responses = f.state.responses ∧
      ((∀ x ∈ s.commands, x.isCommand = true) → f.state.Alike f'.state)) ∧
    (∀ r, step s = .refused r → step s' = .refused r)

/-- R40, R47c, R52 for one step: the completed request leaves at every storage index the byte its write put there, and the
byte that was there where it wrote none. A primitive issued directly writes none (R88: acquiring a view changes no byte). -/
def Obligations.CompletedStepLeavesItsBytes : Prop :=
  ∀ (x : Issue) (rest : List Issue) (s t : State), s.commands = x :: rest → step s = .next t →
    ∀ j, Memory.read t.storage j = byteAfter s.region x j (Memory.read s.storage j)

/-- R52: after any number of commands of a run that starts just after reset, a byte read is the one the last write before it
in program order put there, or `INIT_MEM`'s if none did. -/
def Obligations.ReadsReturnTheLastWrite : Prop :=
  ∀ (n : Nat) (s t : State), s.ControllerRun → s.fr.valid = 0#1 → s.storage = s.region.initMem →
    n ≤ s.commands.length → Host.Core.run Sys2Proof.core n s = .next t →
    ∀ (a : Address) (j : Nat), s.region.Covers a 1 j → ∃ u, exec (.read8 a) t = .next u ∧
      u.rsp.rdata = some ((lastWritten s.region j (s.commands.take n) (Memory.read s.region.initMem j)).setWidth 32)

/-- R158: a run whose commands complete gives one response per command, in order; when the list is used up it has ended
normally. -/
def Obligations.RunAnswersEveryCommand : Prop :=
  ∀ (n : Nat) (s t : State), s.ControllerRun → s.fr.valid = 0#1 → n ≤ s.commands.length →
    Host.Core.run Sys2Proof.core n s = .next t →
    t.commands = s.commands.drop n ∧ t.pos = s.pos + n ∧ s.responses <+: t.responses ∧
    t.responses.length = s.responses.length + n ∧ t.fr = s.fr ∧ (n = s.commands.length → t.EndedNormally)
end

