-- ==== Sys2Proof/Laws/State.lean ====
section
/-! SUPPORT. What each update of State leaves in each field: one lemma per field per update, true by rfl. -/

namespace Sys2Proof.Machine

/-! `State.resetOf` -/

@[simp] theorem resetOf_region (r : Region) : (State.resetOf r).region = r := rfl
@[simp] theorem resetOf_storage (r : Region) : (State.resetOf r).storage = r.initMem := rfl
@[simp] theorem resetOf_fr (r : Region) : (State.resetOf r).fr = FaultRecord.clear := rfl
@[simp] theorem resetOf_views (r : Region) : (State.resetOf r).views = [] := rfl
@[simp] theorem resetOf_rsp (r : Region) : (State.resetOf r).rsp = Response.empty := rfl
@[simp] theorem resetOf_primRsp (r : Region) : (State.resetOf r).primRsp = none := rfl
@[simp] theorem resetOf_commands (r : Region) : (State.resetOf r).commands = [] := rfl
@[simp] theorem resetOf_pos (r : Region) : (State.resetOf r).pos = 0 := rfl
@[simp] theorem resetOf_responses (r : Region) : (State.resetOf r).responses = [] := rfl
@[simp] theorem resetOf_draws (r : Region) : (State.resetOf r).draws = 0 := rfl

/-! `endCommand` -/

@[simp] theorem endCommand_region (p : Response) (s : State) : (endCommand p s).region = s.region := rfl
@[simp] theorem endCommand_storage (p : Response) (s : State) : (endCommand p s).storage = s.storage := rfl
@[simp] theorem endCommand_fr (p : Response) (s : State) : (endCommand p s).fr = s.fr := rfl
@[simp] theorem endCommand_views (p : Response) (s : State) : (endCommand p s).views = [] := rfl
@[simp] theorem endCommand_rsp (p : Response) (s : State) : (endCommand p s).rsp = p := rfl
@[simp] theorem endCommand_primRsp (p : Response) (s : State) : (endCommand p s).primRsp = none := rfl
@[simp] theorem endCommand_commands (p : Response) (s : State) : (endCommand p s).commands = s.commands := rfl
@[simp] theorem endCommand_pos (p : Response) (s : State) : (endCommand p s).pos = s.pos := rfl
@[simp] theorem endCommand_responses (p : Response) (s : State) : (endCommand p s).responses = s.responses := rfl
@[simp] theorem endCommand_draws (p : Response) (s : State) : (endCommand p s).draws = s.draws := rfl

/-! `applyReset` -/

@[simp] theorem applyReset_region (s : State) : (applyReset s).region = s.region := rfl
@[simp] theorem applyReset_storage (s : State) : (applyReset s).storage = s.region.initMem := rfl
@[simp] theorem applyReset_fr (s : State) : (applyReset s).fr = FaultRecord.clear := rfl
@[simp] theorem applyReset_views (s : State) : (applyReset s).views = [] := rfl
@[simp] theorem applyReset_rsp (s : State) : (applyReset s).rsp = Response.empty := rfl
@[simp] theorem applyReset_primRsp (s : State) : (applyReset s).primRsp = none := rfl
@[simp] theorem applyReset_commands (s : State) : (applyReset s).commands = s.commands := rfl
@[simp] theorem applyReset_pos (s : State) : (applyReset s).pos = s.pos := rfl
@[simp] theorem applyReset_responses (s : State) : (applyReset s).responses = s.responses := rfl
@[simp] theorem applyReset_draws (s : State) : (applyReset s).draws = s.draws := rfl

/-! `raise` -/

@[simp] theorem raise_region (c : Cause) (cmd : Option (BitVec 8)) (a : Address) (n : Nat) (p : BitVec 2) (s : State) :
    (raise c cmd a n p s).region = s.region := rfl
@[simp] theorem raise_storage (c : Cause) (cmd : Option (BitVec 8)) (a : Address) (n : Nat) (p : BitVec 2) (s : State) :
    (raise c cmd a n p s).storage = s.storage := rfl
@[simp] theorem raise_fr (c : Cause) (cmd : Option (BitVec 8)) (a : Address) (n : Nat) (p : BitVec 2) (s : State) :
    (raise c cmd a n p s).fr = ⟨1#1, c.code, cmd.getD (Config.freeCmd s.draws), a, recordLen n s.draws, p⟩ := rfl
@[simp] theorem raise_views (c : Cause) (cmd : Option (BitVec 8)) (a : Address) (n : Nat) (p : BitVec 2) (s : State) :
    (raise c cmd a n p s).views = s.views := rfl
@[simp] theorem raise_rsp (c : Cause) (cmd : Option (BitVec 8)) (a : Address) (n : Nat) (p : BitVec 2) (s : State) :
    (raise c cmd a n p s).rsp = Response.empty := rfl
@[simp] theorem raise_primRsp (c : Cause) (cmd : Option (BitVec 8)) (a : Address) (n : Nat) (p : BitVec 2) (s : State) :
    (raise c cmd a n p s).primRsp = none := rfl
@[simp] theorem raise_commands (c : Cause) (cmd : Option (BitVec 8)) (a : Address) (n : Nat) (p : BitVec 2) (s : State) :
    (raise c cmd a n p s).commands = s.commands := rfl
@[simp] theorem raise_pos (c : Cause) (cmd : Option (BitVec 8)) (a : Address) (n : Nat) (p : BitVec 2) (s : State) :
    (raise c cmd a n p s).pos = s.pos := rfl
@[simp] theorem raise_responses (c : Cause) (cmd : Option (BitVec 8)) (a : Address) (n : Nat) (p : BitVec 2) (s : State) :
    (raise c cmd a n p s).responses = s.responses := rfl

/-! `retire` -/

@[simp] theorem retire_region (x : Issue) (s : State) : (retire x s).region = s.region := rfl
@[simp] theorem retire_storage (x : Issue) (s : State) : (retire x s).storage = s.storage := rfl
@[simp] theorem retire_fr (x : Issue) (s : State) : (retire x s).fr = s.fr := rfl
@[simp] theorem retire_views (x : Issue) (s : State) : (retire x s).views = s.views := rfl
@[simp] theorem retire_rsp (x : Issue) (s : State) : (retire x s).rsp = s.rsp := rfl
@[simp] theorem retire_primRsp (x : Issue) (s : State) : (retire x s).primRsp = s.primRsp := rfl
@[simp] theorem retire_commands (x : Issue) (s : State) : (retire x s).commands = s.commands.tail := rfl
@[simp] theorem retire_pos (x : Issue) (s : State) : (retire x s).pos = s.pos + 1 := rfl
@[simp] theorem retire_draws (x : Issue) (s : State) : (retire x s).draws = s.draws := rfl

/-! `State.load` -/

@[simp] theorem load_region (xs : List Issue) (s : State) : (State.load xs s).region = s.region := rfl
@[simp] theorem load_storage (xs : List Issue) (s : State) : (State.load xs s).storage = s.storage := rfl
@[simp] theorem load_fr (xs : List Issue) (s : State) : (State.load xs s).fr = s.fr := rfl
@[simp] theorem load_views (xs : List Issue) (s : State) : (State.load xs s).views = s.views := rfl
@[simp] theorem load_rsp (xs : List Issue) (s : State) : (State.load xs s).rsp = s.rsp := rfl
@[simp] theorem load_primRsp (xs : List Issue) (s : State) : (State.load xs s).primRsp = s.primRsp := rfl
@[simp] theorem load_commands (xs : List Issue) (s : State) : (State.load xs s).commands = xs := rfl
@[simp] theorem load_pos (xs : List Issue) (s : State) : (State.load xs s).pos = 0 := rfl
@[simp] theorem load_responses (xs : List Issue) (s : State) : (State.load xs s).responses = [] := rfl
@[simp] theorem load_draws (xs : List Issue) (s : State) : (State.load xs s).draws = s.draws := rfl

/-! `State.withFetchWord` -/

@[simp] theorem withFetchWord_region (s : State) (nbits w : Nat) :
    (State.withFetchWord s nbits w).region = s.region := rfl
@[simp] theorem withFetchWord_storage (s : State) (nbits w : Nat) :
    (State.withFetchWord s nbits w).storage = s.storage := rfl
@[simp] theorem withFetchWord_fr (s : State) (nbits w : Nat) : (State.withFetchWord s nbits w).fr = s.fr := rfl
@[simp] theorem withFetchWord_views (s : State) (nbits w : Nat) :
    (State.withFetchWord s nbits w).views = s.views := rfl
@[simp] theorem withFetchWord_rsp (s : State) (nbits w : Nat) : (State.withFetchWord s nbits w).rsp = s.rsp := rfl
@[simp] theorem withFetchWord_primRsp (s : State) (nbits w : Nat) :
    (State.withFetchWord s nbits w).primRsp = s.primRsp := rfl
@[simp] theorem withFetchWord_commands (s : State) (nbits w : Nat) :
    (State.withFetchWord s nbits w).commands = .cmd (Request.ofTableWord nbits w) :: s.commands.tail := rfl
@[simp] theorem withFetchWord_pos (s : State) (nbits w : Nat) : (State.withFetchWord s nbits w).pos = s.pos := rfl
@[simp] theorem withFetchWord_responses (s : State) (nbits w : Nat) :
    (State.withFetchWord s nbits w).responses = s.responses := rfl
@[simp] theorem withFetchWord_draws (s : State) (nbits w : Nat) :
    (State.withFetchWord s nbits w).draws = s.draws := rfl

/-! The two fields whose new value depends on what was asked -/

@[simp] theorem raise_draws_command (c : Cause) (w : BitVec 8) (a : Address) (n : Nat) (p : BitVec 2) (s : State) :
    (raise c (some w) a n p s).draws = s.draws := rfl
@[simp] theorem raise_draws_direct (c : Cause) (a : Address) (n : Nat) (p : BitVec 2) (s : State) :
    (raise c none a n p s).draws = s.draws + 1 := rfl
@[simp] theorem retire_responses_command (r : Request) (s : State) :
    (retire (.cmd r) s).responses = s.responses ++ [s.rsp] := rfl
@[simp] theorem retire_responses_direct (q : RpRequest) (s : State) :
    (retire (.rp q) s).responses = s.responses := rfl

/-! The state a fault stops in -/

@[simp] theorem cause_fault_state (c : Cause) (s : State) : (c.fault s).state = s := by cases c <;> rfl

@[simp] theorem reset_eq : State.reset = State.resetOf Config.bootRegion := rfl

end Sys2Proof.Machine
end

