-- ==== Sys2Proof/Laws/Memory.lean ====
section
/-! SUPPORT. The laws of storage: read after write, what a write leaves alone, and that every operation keeps the canonical
form. -/

namespace Sys2Proof.Machine

@[simp] theorem Memory.read_nil (i : Nat) : Memory.read [] i = unlistedByte := rfl

theorem Memory.read_erase_same (m : Memory) (i : Nat) : Memory.read (Memory.erase m i) i = unlistedByte := by
  induction m with
  | nil => rfl
  | cons c m ih => by_cases h : c.1 = i <;> simp [Memory.erase, Memory.read, h, ih]

theorem Memory.read_erase_other (m : Memory) {i j : Nat} (h : j ≠ i) :
    Memory.read (Memory.erase m i) j = Memory.read m j := by
  induction m with
  | nil => rfl
  | cons c m ih =>
    by_cases hc : c.1 = i
    · have : c.1 ≠ j := by omega
      simp [Memory.erase, Memory.read, hc, ih, h.symm]
    · simp [Memory.erase, Memory.read, hc, ih]

theorem Memory.erase_keys (m : Memory) (i : Nat) : ∀ c ∈ Memory.erase m i, c ∈ m ∧ c.1 ≠ i := by
  induction m with
  | nil => simp [Memory.erase]
  | cons c m ih =>
    intro d hd
    by_cases hc : c.1 = i
    · have := ih d (by simpa [Memory.erase, hc] using hd)
      exact ⟨List.mem_cons_of_mem _ this.1, this.2⟩
    · rcases List.mem_cons.mp (by simpa [Memory.erase, hc] using hd) with rfl | hd'
      · exact ⟨List.mem_cons_self, hc⟩
      · exact ⟨List.mem_cons_of_mem _ (ih d hd').1, (ih d hd').2⟩

theorem Memory.read_insert_same (m : Memory) (i : Nat) (b : Byte) (h : ∀ c ∈ m, c.1 ≠ i) :
    Memory.read (Memory.insert m i b) i = b := by
  induction m with
  | nil => simp [Memory.insert, Memory.read]
  | cons c m ih =>
    have hc : c.1 ≠ i := h c List.mem_cons_self
    have hm := ih fun d hd => h d (List.mem_cons_of_mem _ hd)
    by_cases hl : i < c.1 <;> simp [Memory.insert, Memory.read, hl, hc, hm]

theorem Memory.read_insert_other (m : Memory) {i j : Nat} (b : Byte) (h : j ≠ i) :
    Memory.read (Memory.insert m i b) j = Memory.read m j := by
  induction m with
  | nil => simp [Memory.insert, Memory.read, h.symm]
  | cons c m ih => by_cases hl : i < c.1 <;> simp [Memory.insert, Memory.read, hl, ih, h.symm]

theorem Memory.insert_mem (m : Memory) (i : Nat) (b : Byte) : ∀ c ∈ Memory.insert m i b, c = (i, b) ∨ c ∈ m := by
  induction m with
  | nil => simp [Memory.insert]
  | cons c m ih =>
    intro d hd
    by_cases hl : i < c.1
    · simpa [Memory.insert, hl] using hd
    · rcases List.mem_cons.mp (by simpa [Memory.insert, hl] using hd) with rfl | hd'
      · exact .inr List.mem_cons_self
      · exact (ih d hd').imp_right (List.mem_cons_of_mem _)

/-- Read after a write to the same index gives the byte written. -/
@[simp] theorem Memory.read_write_same (m : Memory) (i : Nat) (b : Byte) : Memory.read (Memory.write m i b) i = b := by
  unfold Memory.write
  split
  · next h => simp [Memory.read_erase_same, h]
  · exact Memory.read_insert_same _ _ _ fun c hc => (Memory.erase_keys m i c hc).2

/-- A write leaves every other index alone. -/
theorem Memory.read_write_other (m : Memory) {i j : Nat} (b : Byte) (h : j ≠ i) :
    Memory.read (Memory.write m i b) j = Memory.read m j := by
  unfold Memory.write
  split
  · exact Memory.read_erase_other m h
  · rw [Memory.read_insert_other _ _ h, Memory.read_erase_other m h]

theorem Memory.read_write (m : Memory) (i j : Nat) (b : Byte) :
    Memory.read (Memory.write m i b) j = if j = i then b else Memory.read m j := by
  by_cases h : j = i
  · simp [h]
  · simp [h, Memory.read_write_other m b h]

theorem Memory.erase_sublist (m : Memory) (i : Nat) : (Memory.erase m i).Sublist m := by
  induction m with
  | nil => exact .slnil
  | cons c m ih =>
    by_cases h : c.1 = i
    · simpa [Memory.erase, h] using ih.cons c
    · simpa [Memory.erase, h] using ih.cons_cons c

theorem Memory.erase_wf {m : Memory} (h : Memory.wf m) (i : Nat) : Memory.wf (Memory.erase m i) :=
  ⟨h.1.sublist (Memory.erase_sublist m i), fun c hc => h.2 c ((Memory.erase_sublist m i).subset hc)⟩

theorem Memory.insert_sorted {m : Memory} (h : m.Pairwise fun x y => x.1 < y.1) (i : Nat) (b : Byte)
    (hi : ∀ c ∈ m, c.1 ≠ i) : (Memory.insert m i b).Pairwise fun x y => x.1 < y.1 := by
  induction m with
  | nil => simp [Memory.insert]
  | cons c m ih =>
    obtain ⟨hc, hm⟩ := List.pairwise_cons.mp h
    have hci : c.1 ≠ i := hi c List.mem_cons_self
    by_cases hl : i < c.1
    · simp only [Memory.insert, hl, if_true]
      refine List.pairwise_cons.mpr ⟨fun d hd => ?_, h⟩
      rcases List.mem_cons.mp hd with rfl | hd'
      · exact hl
      · exact hl.trans (hc d hd')
    · simp only [Memory.insert, hl, if_false]
      refine List.pairwise_cons.mpr ⟨fun d hd => ?_, ih hm fun d hd => hi d (List.mem_cons_of_mem _ hd)⟩
      rcases Memory.insert_mem m i b d hd with rfl | hd'
      · exact lt_of_le_of_ne (not_lt.mp hl) hci
      · exact hc d hd'

/-- A write keeps the canonical form. -/
theorem Memory.write_wf {m : Memory} (h : Memory.wf m) (i : Nat) (b : Byte) : Memory.wf (Memory.write m i b) := by
  unfold Memory.write
  split
  · exact Memory.erase_wf h i
  · next hb =>
    refine ⟨Memory.insert_sorted (Memory.erase_wf h i).1 i b fun c hc => (Memory.erase_keys m i c hc).2, fun c hc => ?_⟩
    rcases Memory.insert_mem _ i b c hc with rfl | hc'
    · exact hb
    · exact (Memory.erase_wf h i).2 c hc'

/-- A write below `cap` keeps contents within `cap` bytes. -/
theorem Memory.write_within {m : Memory} {cap : Nat} (h : Memory.within m cap) {i : Nat} (hi : i < cap) (b : Byte) :
    Memory.within (Memory.write m i b) cap := by
  have he : Memory.within (Memory.erase m i) cap := fun c hc => h c ((Memory.erase_sublist m i).subset hc)
  unfold Memory.write
  split
  · exact he
  · intro c hc
    rcases Memory.insert_mem _ i b c hc with rfl | hc'
    · exact hi
    · exact he c hc'

/-- What a run of bytes written from index `i` leaves at index `j`. -/
theorem Memory.read_writeBytes (bs : List Byte) : ∀ (m : Memory) (i j : Nat),
    Memory.read (Memory.writeBytes m i bs) j = if h : i ≤ j ∧ j < i + bs.length then bs[j - i]'(by omega) else Memory.read m j := by
  induction bs with
  | nil =>
    intro m i j
    have : ¬(i ≤ j ∧ j < i) := by omega
    simp [Memory.writeBytes, this]
  | cons b bs ih =>
    intro m i j
    rw [Memory.writeBytes, ih]
    by_cases hj : j = i
    · subst hj
      simp
    · rw [Memory.read_write_other m b hj]
      by_cases h : i ≤ j ∧ j < i + (b :: bs).length
      · have h' : i + 1 ≤ j ∧ j < i + 1 + bs.length := by simp only [List.length_cons] at h; omega
        have e : j - i = (j - (i + 1)) + 1 := by omega
        rw [dif_pos h', dif_pos h]
        simp [e]
      · have h' : ¬(i + 1 ≤ j ∧ j < i + 1 + bs.length) := by simp only [List.length_cons] at h; omega
        simp only [h, h', dite_false]

theorem Memory.writeBytes_wf (bs : List Byte) : ∀ {m : Memory}, Memory.wf m → ∀ i, Memory.wf (Memory.writeBytes m i bs) := by
  induction bs with
  | nil => exact fun h _ => h
  | cons b bs ih => exact fun h i => ih (Memory.write_wf h i b) (i + 1)

theorem Memory.writeBytes_within (bs : List Byte) : ∀ {m : Memory} {cap : Nat}, Memory.within m cap → ∀ i, i + bs.length ≤ cap →
    Memory.within (Memory.writeBytes m i bs) cap := by
  induction bs with
  | nil => exact fun h _ _ => h
  | cons b bs ih =>
    intro m cap h i hi
    rw [List.length_cons] at hi
    exact ih (Memory.write_within h (by omega) b) (i + 1) (by omega)

/-- Two canonical lists that read the same at every index are the same list. -/
theorem Memory.ext {m m' : Memory} (h : Memory.wf m) (h' : Memory.wf m') (e : ∀ i, Memory.read m i = Memory.read m' i) :
    m = m' := by
  have below : ∀ {m : Memory} {i : Nat}, (∀ c ∈ m, i < c.1) → Memory.read m i = unlistedByte := by
    intro m i hm
    induction m with
    | nil => rfl
    | cons c m ih =>
      have : c.1 ≠ i := by have := hm c List.mem_cons_self; omega
      simp [Memory.read, this, ih fun d hd => hm d (List.mem_cons_of_mem _ hd)]
  induction m generalizing m' with
  | nil =>
    cases m' with
    | nil => rfl
    | cons c m' =>
      have := e c.1
      simp only [Memory.read, if_true] at this
      exact absurd this.symm (h'.2 c List.mem_cons_self)
  | cons c m ih =>
    cases m' with
    | nil =>
      have := e c.1
      simp only [Memory.read, if_true] at this
      exact absurd this (h.2 c List.mem_cons_self)
    | cons d m' =>
      obtain ⟨hc, hm⟩ := List.pairwise_cons.mp h.1
      obtain ⟨hd, hm'⟩ := List.pairwise_cons.mp h'.1
      have hc0 := h.2 c List.mem_cons_self
      have hd0 := h'.2 d List.mem_cons_self
      have key : c.1 = d.1 := by
        rcases lt_trichotomy c.1 d.1 with hlt | heq | hgt
        · have := e c.1
          rw [below (m := d :: m') (by
            intro x hx
            rcases List.mem_cons.mp hx with rfl | hx
            · exact hlt
            · exact hlt.trans (hd x hx))] at this
          simp only [Memory.read, if_true] at this
          exact absurd this hc0
        · exact heq
        · have := e d.1
          rw [below (m := c :: m) (by
            intro x hx
            rcases List.mem_cons.mp hx with rfl | hx
            · exact hgt
            · exact hgt.trans (hc x hx))] at this
          simp only [Memory.read, if_true] at this
          exact absurd this.symm hd0
      have val : c.2 = d.2 := by
        have := e c.1
        rw [Memory.read, if_pos rfl, Memory.read, if_pos key.symm] at this
        exact this
      have hcd : c = d := Prod.ext key val
      have tails := ih ⟨hm, fun x hx => h.2 x (List.mem_cons_of_mem _ hx)⟩
        ⟨hm', fun x hx => h'.2 x (List.mem_cons_of_mem _ hx)⟩ fun i => by
          by_cases hi : c.1 = i
          · subst hi
            rw [below hc, below (by simpa only [key] using hd)]
          · have := e i
            rw [Memory.read, if_neg hi, Memory.read, if_neg (by rwa [← key])] at this
            exact this
      rw [hcd, tails]

end Sys2Proof.Machine
end

