-- ==== Sys2Proof/Laws/Region.lean ====
section
/-! SUPPORT. What the region's functions say: a covered range, and that the check made at binding implies `REGION_WF`. -/

namespace Sys2Proof

theorem windowIndex_some {ws : List Window} {a i : Nat} (h : windowIndex ws a = some i) :
    ∃ w ∈ ws, w.base ≤ a ∧ a < w.base + w.len ∧ i = w.off + (a - w.base) := by
  induction ws with
  | nil => simp [windowIndex] at h
  | cons w ws ih =>
    by_cases hw : w.base ≤ a ∧ a < w.base + w.len
    · rw [windowIndex, if_pos hw] at h
      exact ⟨w, List.mem_cons_self, hw.1, hw.2, (Option.some.inj h).symm⟩
    · rw [windowIndex, if_neg hw] at h
      obtain ⟨v, hv, rest⟩ := ih h
      exact ⟨v, List.mem_cons_of_mem _ hv, rest⟩

/-- Where windows do not overlap, any window that holds the address decides its index. -/
theorem windowIndex_of_mem {ws : List Window}
    (hd : ws.Pairwise fun v w => v.base + v.len ≤ w.base ∨ w.base + w.len ≤ v.base) {w : Window} (hw : w ∈ ws) {a : Nat}
    (h : w.base ≤ a ∧ a < w.base + w.len) : windowIndex ws a = some (w.off + (a - w.base)) := by
  induction ws with
  | nil => simp at hw
  | cons v ws ih =>
    obtain ⟨hv, hrest⟩ := List.pairwise_cons.mp hd
    rcases List.mem_cons.mp hw with rfl | hw'
    · rw [windowIndex, if_pos h]
    · have := hv w hw'
      have hn : ¬(v.base ≤ a ∧ a < v.base + v.len) := by omega
      rw [windowIndex, if_neg hn, ih hrest hw']

theorem Region.check_parts {r : Region} (h : r.check = true) :
    (∀ w ∈ r.windows, w.base + w.len ≤ 2 ^ addrWidth ∧ w.off + w.len ≤ r.cap ∧
      (w.off + w.len = r.cap ∨ w.base + w.len = 2 ^ addrWidth ∨
        windowIndex r.windows (w.base + w.len) = some (w.off + w.len))) ∧
    (r.windows.Pairwise fun v w => v.base + v.len ≤ w.base ∨ w.base + w.len ≤ v.base) ∧
    Machine.Memory.wf r.initMem ∧ Machine.Memory.within r.initMem r.cap := by
  simp only [Region.check, Region.windowOk, Bool.and_eq_true, Bool.or_eq_true, List.all_eq_true, decide_eq_true_eq] at h
  obtain ⟨⟨⟨hw, hd⟩, hm⟩, hi⟩ := h
  refine ⟨fun w hmem => ?_, hd, hm, hi⟩
  obtain ⟨⟨h1, h2⟩, h3⟩ := hw w hmem
  exact ⟨h1, h2, by tauto⟩

/-- A region that passes the check satisfies R23's `REGION_WF`, and its `INIT_MEM` is contents of `CAP` bytes. -/
theorem Region.check_sound {r : Region} (h : r.check = true) : r.Ok := by
  obtain ⟨hw, hd, hm, hi⟩ := Region.check_parts h
  refine ⟨⟨fun a i ha => ?_, fun a i ha hidx hcap => ?_⟩, hm, hi⟩
  · obtain ⟨w, hmem, h1, h2, rfl⟩ := windowIndex_some ha
    have := (hw w hmem).2.1
    omega
  · obtain ⟨w, hmem, h1, h2, rfl⟩ := windowIndex_some hidx
    have hnext : (a + 1).toNat = a.toNat + 1 := by
      have one : (1 : Address).toNat = 1 := rfl
      rw [BitVec.toNat_add, one, Nat.mod_eq_of_lt ha]
    obtain ⟨-, -, hend⟩ := hw w hmem
    rw [Region.idx, hnext]
    by_cases hin : a.toNat + 1 < w.base + w.len
    · rw [windowIndex_of_mem hd hmem ⟨by omega, hin⟩]
      congr 1
      omega
    · have he : a.toNat + 1 = w.base + w.len := by omega
      rcases hend with hc | ht | hc
      · omega
      · omega
      · rw [he, hc]
        congr 1
        omega

/-- `covers(a, n)` and where the range starts (R24), as one equivalence. -/
theorem Region.locate_eq_some {r : Region} {a : Address} {n i : Nat} :
    r.locate a n = some i ↔ r.idx a = some i ∧ a.toNat + n ≤ 2 ^ addrWidth ∧ i + n ≤ r.cap := by
  unfold Region.locate
  cases h : r.idx a with
  | none => simp
  | some j =>
    simp only [Option.ite_none_right_eq_some, Option.some.injEq]
    constructor
    · rintro ⟨hc, rfl⟩
      exact ⟨rfl, hc⟩
    · rintro ⟨rfl, hc⟩
      exact ⟨hc, rfl⟩

theorem Region.covers_iff {r : Region} {a : Address} {n : Nat} : r.covers a n = true ↔ ∃ i, r.locate a n = some i := by
  rw [Region.covers, Option.isSome_iff_exists]

theorem Region.locate_eq_none {r : Region} {a : Address} {n : Nat} : r.locate a n = none ↔ r.covers a n = false := by
  simp [Region.covers]

/-- The cost of a table that charges one row at every address. -/
@[simp] theorem cycleFn_uniform (cap : Nat) (ws : List Window) (row : CycleRow) (m : List Host.Cell) (a : Address)
    (d : Descriptor) : Region.cycleFn ⟨cap, ws, CycleTable.uniform row, m⟩ a d = row.cost d := rfl

end Sys2Proof
end

