-- ==== Sys2Proof/Laws/Ops.lean ====
section
/-! SUPPORT. What each shared operation can answer, said once. -/

namespace Sys2Proof.Machine

/-! ### Sequencing -/

@[simp] theorem andThen_next {α β : Type} (v : α) (k : α → Host.Outcome β Fault Refusal) : andThen (.next v) k = k v := rfl
@[simp] theorem andThen_fault {α β : Type} (f : Fault) (k : α → Host.Outcome β Fault Refusal) :
    andThen (.fault f) k = .fault f := rfl
@[simp] theorem andThen_refused {α β : Type} (r : Refusal) (k : α → Host.Outcome β Fault Refusal) :
    andThen (.refused r) k = .refused r := rfl
@[simp] theorem andThen_raiseFault {α β : Type} (c : Cause) (cmd : Option (BitVec 8)) (a : Address) (n : Nat) (p : BitVec 2)
    (s : State) (k : α → Host.Outcome β Fault Refusal) :
    andThen (raiseFault c cmd a n p s) k = raiseFault c cmd a n p s := rfl

theorem andThen_eq_next {α β : Type} {x : Host.Outcome α Fault Refusal} {k : α → Host.Outcome β Fault Refusal} {t : β}
    (h : andThen x k = .next t) : ∃ v, x = .next v ∧ k v = .next t := by
  cases x with
  | next v => exact ⟨v, rfl, h⟩
  | fault f => cases h
  | refused r => cases h

theorem andThen_eq_fault {α β : Type} {x : Host.Outcome α Fault Refusal} {k : α → Host.Outcome β Fault Refusal} {f : Fault}
    (h : andThen x k = .fault f) : x = .fault f ∨ ∃ v, x = .next v ∧ k v = .fault f := by
  cases x with
  | next v => exact .inr ⟨v, rfl, h⟩
  | fault g => cases h; exact .inl rfl
  | refused r => cases h

/-! ### The stopped controller (R140) -/

@[simp] theorem whenRunning_running {s : State} (h : s.fr.valid ≠ 1#1) (k : Host.Outcome State Fault Refusal) :
    whenRunning s k = k := if_neg h

@[simp] theorem whenRunning_stopped {s : State} (h : s.fr.valid = 1#1) (k : Host.Outcome State Fault Refusal) :
    whenRunning s k = .fault (.stopped s) := if_pos h

theorem whenRunning_eq_next {s t : State} {k : Host.Outcome State Fault Refusal} (h : whenRunning s k = .next t) :
    s.fr.valid ≠ 1#1 ∧ k = .next t := by
  by_cases hs : s.fr.valid = 1#1
  · simp [hs] at h
  · exact ⟨hs, by simpa [hs] using h⟩

theorem whenRunning_eq_fault {s : State} {k : Host.Outcome State Fault Refusal} {f : Fault}
    (h : whenRunning s k = .fault f) : (s.fr.valid = 1#1 ∧ f = .stopped s) ∨ (s.fr.valid ≠ 1#1 ∧ k = .fault f) := by
  by_cases hs : s.fr.valid = 1#1
  · refine .inl ⟨hs, ?_⟩
    simp only [hs, whenRunning_stopped, Host.Outcome.fault.injEq] at h
    exact h.symm
  · exact .inr ⟨hs, by simpa [hs] using h⟩

/-! ### The view primitives (R86, R88) -/

theorem acquire_granted {kind : ViewKind} {cmd : Option (BitVec 8)} {a : Address} {n i : Nat} {s : State} (hn : n ≠ 0)
    (hi : s.region.locate a n = some i) (hv : conflicts ⟨kind, i, n⟩ s.views = false) :
    acquire kind cmd a n s = .next (⟨kind, i, n⟩, { s with views := s.views ++ [⟨kind, i, n⟩] }) := by
  simp [acquire, hn, hi, hv]

theorem acquire_uncovered {kind : ViewKind} {cmd : Option (BitVec 8)} {a : Address} {n : Nat} {s : State} (hn : n ≠ 0)
    (hi : s.region.covers a n = false) :
    acquire kind cmd a n s = raiseFault .rangeFault cmd a n kind.primCode s := by
  simp [acquire, hn, Region.locate_eq_none.mpr hi]

theorem acquire_alias {kind : ViewKind} {cmd : Option (BitVec 8)} {a : Address} {n i : Nat} {s : State} (hn : n ≠ 0)
    (hi : s.region.locate a n = some i) (hv : conflicts ⟨kind, i, n⟩ s.views = true) :
    acquire kind cmd a n s = raiseFault .aliasViolation cmd a n kind.primCode s := by
  simp [acquire, hn, hi, hv]

/-- Everything a view primitive can do. -/
theorem acquire_cases (kind : ViewKind) (cmd : Option (BitVec 8)) (a : Address) (n : Nat) (s : State) :
    (n = 0 ∧ acquire kind cmd a n s = .refused .zeroLength) ∨
    (n ≠ 0 ∧ s.region.covers a n = false ∧ acquire kind cmd a n s = raiseFault .rangeFault cmd a n kind.primCode s) ∨
    (∃ i, n ≠ 0 ∧ s.region.locate a n = some i ∧ conflicts ⟨kind, i, n⟩ s.views = true ∧
      acquire kind cmd a n s = raiseFault .aliasViolation cmd a n kind.primCode s) ∨
    (∃ i, n ≠ 0 ∧ s.region.locate a n = some i ∧ conflicts ⟨kind, i, n⟩ s.views = false ∧
      acquire kind cmd a n s = .next (⟨kind, i, n⟩, { s with views := s.views ++ [⟨kind, i, n⟩] })) := by
  by_cases hn : n = 0
  · exact .inl ⟨hn, by simp [acquire, hn]⟩
  · refine .inr ?_
    cases hi : s.region.locate a n with
    | none => exact .inl ⟨hn, Region.locate_eq_none.mp hi, acquire_uncovered hn (Region.locate_eq_none.mp hi)⟩
    | some i =>
      cases hv : conflicts ⟨kind, i, n⟩ s.views with
      | true => exact .inr (.inl ⟨i, hn, rfl, hv, acquire_alias hn hi hv⟩)
      | false => exact .inr (.inr ⟨i, hn, rfl, hv, acquire_granted hn hi hv⟩)

/-- With no live view nothing conflicts (R90). -/
@[simp] theorem conflicts_nil (v : View) : conflicts v [] = false := rfl

theorem conflicts_append (v : View) (us vs : List View) : conflicts v (us ++ vs) = (conflicts v us || conflicts v vs) :=
  List.any_append

theorem View.overlaps_comm (u v : View) : u.overlaps v = v.overlaps u := Bool.and_comm ..

/-- A view that passes the check leaves the set exclusive (R89). -/
theorem exclusive_append {vs : List View} {v : View} (h : Exclusive vs) (hv : conflicts v vs = false) :
    Exclusive (vs ++ [v]) := by
  refine List.pairwise_append.mpr ⟨h, List.pairwise_singleton _ _, fun u hu w hw hk => ?_⟩
  obtain rfl : w = v := by simpa using hw
  have := List.any_eq_false.mp hv u hu
  rcases hk with hk | hk <;> simpa [hk] using this

/-! ### The commands (R100) and the primitives issued directly -/

theorem AccessWidth.bytes_ne_zero (w : AccessWidth) : w.bytes ≠ 0 := by cases w <;> decide

/-- A read whose range is covered, and free of live mutable views, completes. -/
theorem readOp_completes {cmd : BitVec 8} {w : AccessWidth} {a : Address} {i : Nat} {s : State} (hs : s.fr.valid ≠ 1#1)
    (hi : s.region.locate a w.bytes = some i) (hv : conflicts ⟨.imm, i, w.bytes⟩ s.views = false) :
    readOp cmd w a s = .next (endCommand (Response.ofRdata (readValue (viewBytes s.storage ⟨.imm, i, w.bytes⟩))) s) := by
  simp [readOp, hs, acquire_granted (AccessWidth.bytes_ne_zero w) hi hv, endCommand]

/-- A write whose range is covered, and free of live views, completes. -/
theorem writeOp_completes {cmd : BitVec 8} {w : AccessWidth} {a : Address} {v : Word} {i : Nat} {s : State}
    (hs : s.fr.valid ≠ 1#1) (hi : s.region.locate a w.bytes = some i)
    (hv : conflicts ⟨.mut, i, w.bytes⟩ s.views = false) :
    writeOp cmd w a v s = .next (endCommand (Response.ofWerr writeStatus)
      { s with storage := Memory.writeBytes s.storage i (leEncode w.bytes (writeValue w v)) }) := by
  simp [writeOp, hs, acquire_granted (AccessWidth.bytes_ne_zero w) hi hv, endCommand]

theorem cyclesOp_completes {d : Descriptor} {a : Address} {s : State} (hs : s.fr.valid ≠ 1#1) :
    cyclesOp d a s = .next (endCommand (Response.ofCyc (s.region.cycleFn a d)) s) := by
  simp [cyclesOp, hs]

theorem readOp_uncovered {cmd : BitVec 8} {w : AccessWidth} {a : Address} {s : State} (hs : s.fr.valid ≠ 1#1)
    (hi : s.region.covers a w.bytes = false) :
    readOp cmd w a s = raiseFault .rangeFault (some cmd) a w.bytes 0#2 s := by
  simp [readOp, hs, acquire_uncovered (AccessWidth.bytes_ne_zero w) hi, ViewKind.primCode]

theorem writeOp_uncovered {cmd : BitVec 8} {w : AccessWidth} {a : Address} {v : Word} {s : State} (hs : s.fr.valid ≠ 1#1)
    (hi : s.region.covers a w.bytes = false) :
    writeOp cmd w a v s = raiseFault .rangeFault (some cmd) a w.bytes 1#2 s := by
  simp [writeOp, hs, acquire_uncovered (AccessWidth.bytes_ne_zero w) hi, ViewKind.primCode]

/-- If a read answers a next state, its range was covered and this is the state. -/
theorem readOp_eq_next {cmd : BitVec 8} {w : AccessWidth} {a : Address} {s t : State} (h : readOp cmd w a s = .next t) :
    s.fr.valid ≠ 1#1 ∧ ∃ i, s.region.locate a w.bytes = some i ∧ conflicts ⟨.imm, i, w.bytes⟩ s.views = false ∧
      t = endCommand (Response.ofRdata (readValue (viewBytes s.storage ⟨.imm, i, w.bytes⟩))) s := by
  have hs := (whenRunning_eq_next h).1
  rcases acquire_cases .imm (some cmd) a w.bytes s with ⟨hn, -⟩ | ⟨-, hc, -⟩ | ⟨i, hn, hi, hv, ha⟩ | ⟨i, -, hi, hv, -⟩
  · exact absurd hn (AccessWidth.bytes_ne_zero w)
  · rw [readOp_uncovered hs hc] at h; cases h
  · simp [readOp, hs, ha, raiseFault] at h
  · rw [readOp_completes hs hi hv] at h
    exact ⟨hs, i, hi, hv, (Host.Outcome.next.inj h).symm⟩

/-- If a write answers a next state, its range was covered and this is the state. -/
theorem writeOp_eq_next {cmd : BitVec 8} {w : AccessWidth} {a : Address} {v : Word} {s t : State}
    (h : writeOp cmd w a v s = .next t) :
    s.fr.valid ≠ 1#1 ∧ ∃ i, s.region.locate a w.bytes = some i ∧ conflicts ⟨.mut, i, w.bytes⟩ s.views = false ∧
      t = endCommand (Response.ofWerr writeStatus)
        { s with storage := Memory.writeBytes s.storage i (leEncode w.bytes (writeValue w v)) } := by
  have hs := (whenRunning_eq_next h).1
  rcases acquire_cases .mut (some cmd) a w.bytes s with ⟨hn, -⟩ | ⟨-, hc, -⟩ | ⟨i, hn, hi, hv, ha⟩ | ⟨i, -, hi, hv, -⟩
  · exact absurd hn (AccessWidth.bytes_ne_zero w)
  · rw [writeOp_uncovered hs hc] at h; cases h
  · simp [writeOp, hs, ha, raiseFault] at h
  · rw [writeOp_completes hs hi hv] at h
    exact ⟨hs, i, hi, hv, (Host.Outcome.next.inj h).symm⟩

theorem cyclesOp_eq_next {d : Descriptor} {a : Address} {s t : State} (h : cyclesOp d a s = .next t) :
    s.fr.valid ≠ 1#1 ∧ t = endCommand (Response.ofCyc (s.region.cycleFn a d)) s := by
  obtain ⟨hs, hk⟩ := whenRunning_eq_next h
  exact ⟨hs, (Host.Outcome.next.inj hk).symm⟩

/-- If a view primitive issued directly answers a next state, the view was granted and joined `V`. -/
theorem viewPrimitive_eq_next {kind : ViewKind} {a : Address} {n : Nat} {s t : State}
    (h : viewPrimitive kind a n s = .next t) :
    s.fr.valid ≠ 1#1 ∧ ∃ i, n ≠ 0 ∧ s.region.locate a n = some i ∧ conflicts ⟨kind, i, n⟩ s.views = false ∧
      t = { s with views := s.views ++ [⟨kind, i, n⟩], primRsp := some (.view ⟨kind, i, n⟩) } := by
  obtain ⟨hs, hk⟩ := whenRunning_eq_next h
  refine ⟨hs, ?_⟩
  rcases acquire_cases kind none a n s with ⟨-, ha⟩ | ⟨-, -, ha⟩ | ⟨i, -, -, -, ha⟩ | ⟨i, hn, hi, hv, ha⟩
  · rw [ha] at hk; cases hk
  · rw [ha] at hk; cases hk
  · rw [ha] at hk; cases hk
  · rw [ha] at hk
    exact ⟨i, hn, hi, hv, (Host.Outcome.next.inj hk).symm⟩

theorem cyclesPrimitive_eq_next {d : Descriptor} {a : Address} {s t : State} (h : cyclesPrimitive d a s = .next t) :
    t = { s with primRsp := some (.cycles (s.region.cycleFn a d)) } := (Host.Outcome.next.inj h).symm

/-- GETCYCLES never faults (R91). -/
theorem cyclesPrimitive_ne_fault {d : Descriptor} {a : Address} {s : State} {f : Fault} : cyclesPrimitive d a s ≠ .fault f :=
  nofun

/-- Everything a fault of a view primitive can be. -/
theorem acquire_eq_fault {kind : ViewKind} {cmd : Option (BitVec 8)} {a : Address} {n : Nat} {s : State} {f : Fault}
    (h : acquire kind cmd a n s = .fault f) :
    ∃ c, (c = Cause.rangeFault ∨ c = Cause.aliasViolation) ∧ f = c.fault (raise c cmd a n kind.primCode s) := by
  rcases acquire_cases kind cmd a n s with ⟨-, ha⟩ | ⟨-, -, ha⟩ | ⟨i, -, -, -, ha⟩ | ⟨i, -, -, -, ha⟩
  · rw [ha] at h; cases h
  · rw [ha] at h; cases h; exact ⟨_, .inl rfl, rfl⟩
  · rw [ha] at h; cases h; exact ⟨_, .inr rfl, rfl⟩
  · rw [ha] at h; cases h

theorem readOp_eq_fault {cmd : BitVec 8} {w : AccessWidth} {a : Address} {s : State} {f : Fault}
    (h : readOp cmd w a s = .fault f) : (s.fr.valid = 1#1 ∧ f = .stopped s) ∨ (s.fr.valid ≠ 1#1 ∧
      ∃ c, (c = Cause.rangeFault ∨ c = Cause.aliasViolation) ∧ f = c.fault (raise c (some cmd) a w.bytes 0#2 s)) := by
  refine (whenRunning_eq_fault h).imp_right fun ⟨hs, hk⟩ => ⟨hs, ?_⟩
  rcases andThen_eq_fault hk with ha | ⟨v, -, hv⟩
  · exact acquire_eq_fault ha
  · cases hv

theorem writeOp_eq_fault {cmd : BitVec 8} {w : AccessWidth} {a : Address} {v : Word} {s : State} {f : Fault}
    (h : writeOp cmd w a v s = .fault f) : (s.fr.valid = 1#1 ∧ f = .stopped s) ∨ (s.fr.valid ≠ 1#1 ∧
      ∃ c, (c = Cause.rangeFault ∨ c = Cause.aliasViolation) ∧ f = c.fault (raise c (some cmd) a w.bytes 1#2 s)) := by
  refine (whenRunning_eq_fault h).imp_right fun ⟨hs, hk⟩ => ⟨hs, ?_⟩
  rcases andThen_eq_fault hk with ha | ⟨v, -, hv⟩
  · exact acquire_eq_fault ha
  · cases hv

theorem cyclesOp_eq_fault {d : Descriptor} {a : Address} {s : State} {f : Fault} (h : cyclesOp d a s = .fault f) :
    s.fr.valid = 1#1 ∧ f = .stopped s := by
  rcases whenRunning_eq_fault h with hs | ⟨-, hk⟩
  · exact hs
  · cases hk

theorem viewPrimitive_eq_fault {kind : ViewKind} {a : Address} {n : Nat} {s : State} {f : Fault}
    (h : viewPrimitive kind a n s = .fault f) : (s.fr.valid = 1#1 ∧ f = .stopped s) ∨ (s.fr.valid ≠ 1#1 ∧
      ∃ c, (c = Cause.rangeFault ∨ c = Cause.aliasViolation) ∧ f = c.fault (raise c none a n kind.primCode s)) := by
  refine (whenRunning_eq_fault h).imp_right fun ⟨hs, hk⟩ => ⟨hs, ?_⟩
  rcases andThen_eq_fault hk with ha | ⟨v, -, hv⟩
  · exact acquire_eq_fault ha
  · cases hv

/-! ### The little-endian codec (R10, R40) -/

@[simp] theorem leEncode_length {m : Nat} (n : Nat) (v : BitVec m) : (leEncode n v).length = n := by simp [leEncode]

/-- Byte `k` of the encoding is bits `[8k+7:8k]` (R10). -/
theorem leEncode_get {m : Nat} (n : Nat) (v : BitVec m) (k : Nat) (h : k < (leEncode n v).length) :
    (leEncode n v)[k] = v.extractLsb' (8 * k) 8 := by simp [leEncode]

/-- A byte of the write value is the same byte of the write data (R65). -/
theorem writeValue_byte (w : AccessWidth) (v : Word) {k : Nat} (h : k < w.bytes) :
    (writeValue w v).extractLsb' (8 * k) 8 = v.extractLsb' (8 * k) 8 := by
  apply BitVec.eq_of_getLsbD_eq
  intro j hj
  have : 8 * k + j < 8 * w.bytes := by omega
  simp [writeValue, hj, this]

/-- What a write leaves at each storage index: its bytes, and every other byte as it was (R47c). -/
theorem read_write_transfer (w : AccessWidth) (v : Word) (m : Memory) (i j : Nat) :
    Memory.read (Memory.writeBytes m i (leEncode w.bytes (writeValue w v))) j =
      if i ≤ j ∧ j < i + w.bytes then v.extractLsb' (8 * (j - i)) 8 else Memory.read m j := by
  rw [Memory.read_writeBytes]
  by_cases h : i ≤ j ∧ j < i + w.bytes
  · rw [dif_pos (by simpa using h), if_pos h, leEncode_get, writeValue_byte w v (by omega)]
  · rw [dif_neg (by simpa using h), if_neg h]

theorem leDecode_lt (bs : List Byte) : leDecode bs < 2 ^ (8 * bs.length) := by
  induction bs with
  | nil => decide
  | cons b bs ih =>
    have hb := b.isLt
    have : 2 ^ (8 * (b :: bs).length) = 2 ^ 8 * 2 ^ (8 * bs.length) := by
      rw [← pow_add]; congr 1; simp only [List.length_cons]; omega
    rw [this, leDecode]
    omega

/-- The value a read of one, two or four bytes gives, byte 0 least significant (R101 to R103). -/
theorem readValue_one (b : Byte) : readValue [b] = b.setWidth 32 := by
  apply BitVec.eq_of_toNat_eq
  simp [readValue, leDecode]

theorem readValue_two (b0 b1 : Byte) : readValue [b0, b1] = (b1 ++ b0).setWidth 32 := by
  apply BitVec.eq_of_toNat_eq
  have h0 := b0.isLt
  have h1 := b1.isLt
  simp only [readValue, leDecode, BitVec.toNat_ofNat, BitVec.toNat_setWidth, BitVec.toNat_append]
  rw [← Nat.shiftLeft_add_eq_or_of_lt h0, Nat.shiftLeft_eq]
  omega

theorem readValue_four (b0 b1 b2 b3 : Byte) : readValue [b0, b1, b2, b3] = b3 ++ b2 ++ b1 ++ b0 := by
  apply BitVec.eq_of_toNat_eq
  have h0 := b0.isLt
  have h1 := b1.isLt
  have h2 := b2.isLt
  have h3 := b3.isLt
  simp only [readValue, leDecode, BitVec.toNat_ofNat, BitVec.toNat_append]
  rw [← Nat.shiftLeft_add_eq_or_of_lt h0, ← Nat.shiftLeft_add_eq_or_of_lt h1, ← Nat.shiftLeft_add_eq_or_of_lt h2]
  simp only [Nat.shiftLeft_eq]
  omega

end Sys2Proof.Machine
end

