-- ==== Sys2Proof/Laws/Step.lean ====
section
/-! SUPPORT. The decoder by cases (R67 to R71), and everything a step can do. -/

namespace Sys2Proof

@[simp] theorem decodeWord_read8 : decodeWord 0x00#8 = .read .w8 := by decide
@[simp] theorem decodeWord_read16 : decodeWord 0x01#8 = .read .w16 := by decide
@[simp] theorem decodeWord_read32 : decodeWord 0x02#8 = .read .w32 := by decide
@[simp] theorem decodeWord_write8 : decodeWord 0x08#8 = .write .w8 := by decide
@[simp] theorem decodeWord_write16 : decodeWord 0x09#8 = .write .w16 := by decide
@[simp] theorem decodeWord_write32 : decodeWord 0x0A#8 = .write .w32 := by decide
@[simp] theorem decodeWord_cyclesN8 : decodeWord 0x10#8 = .cycles .nonSequential .w8 := by decide
@[simp] theorem decodeWord_cyclesN16 : decodeWord 0x11#8 = .cycles .nonSequential .w16 := by decide
@[simp] theorem decodeWord_cyclesN32 : decodeWord 0x12#8 = .cycles .nonSequential .w32 := by decide
@[simp] theorem decodeWord_cyclesS8 : decodeWord 0x14#8 = .cycles .sequential .w8 := by decide
@[simp] theorem decodeWord_cyclesS16 : decodeWord 0x15#8 = .cycles .sequential .w16 := by decide
@[simp] theorem decodeWord_cyclesS32 : decodeWord 0x16#8 = .cycles .sequential .w32 := by decide

theorem decodeWord_illegal {c : BitVec 8} (h : legal c = false) : decodeWord c = .illegal c := by simp [decodeWord, h]

/-- A word the decoder rejects is the word itself, and not legal. -/
theorem decodeWord_eq_illegal {c c' : BitVec 8} (h : decodeWord c = .illegal c') : c' = c ∧ legal c = false := by
  cases hl : legal c with
  | false =>
    rw [decodeWord_illegal hl, Op.illegal.injEq] at h
    exact ⟨h.symm, rfl⟩
  | true =>
    exfalso
    have key : ∀ c : BitVec 8, legal c = true → (AccessWidth.ofCode (c.extractLsb' 0 2)).isSome = true := by decide
    obtain ⟨w, hw⟩ := Option.isSome_iff_exists.mp (key c hl)
    simp only [decodeWord, hl, hw, if_true] at h
    split at h
    · cases h
    · split at h <;> cases h

/-- The word of the command a legal word decodes to is that word: no two legal words have one meaning. -/
theorem word_of_decodeWord :
    (∀ c w, decodeWord c = .read w → (readInstr w 0).word = c) ∧
    (∀ c w, decodeWord c = .write w → (writeInstr w 0 0).word = c) ∧
    (∀ c t w, decodeWord c = .cycles t w → (cyclesInstr t w 0).word = c) := by
  refine ⟨fun c w => ?_, fun c w => ?_, fun c t w => ?_⟩
  · cases w <;> revert c <;> decide
  · cases w <;> revert c <;> decide
  · cases t <;> cases w <;> revert c <;> decide

/-- Region-port words 0x03 to 0xFF are reserved (R70). -/
theorem decodeRp_reserved {q : RpRequest} (h : 0x03#8 ≤ q.prim) : decode (.rp q) = .reservedPrimitive q.prim := by
  have key : ∀ p : BitVec 8, 0x03#8 ≤ p →
      (p.extractLsb' 2 6 != 0b000000#6 || p.extractLsb' 0 2 == 0b11#2) = true := by decide
  simp only [decode, decodeRp]
  rw [if_pos (key q.prim h)]

/-- Every request decodes to an instruction of its own port, to no instruction, or is refused. -/
theorem decodeCmd_cases (r : Request) :
    (∃ w, decodeWord r.cmd = .read w ∧ decode (.cmd r) = .instr (readInstr w r.addr)) ∨
    (∃ w, decodeWord r.cmd = .write w ∧ decode (.cmd r) = .instr (writeInstr w r.addr r.wdata)) ∨
    (∃ t w, decodeWord r.cmd = .cycles t w ∧ decode (.cmd r) = .instr (cyclesInstr t w r.addr)) ∨
    (legal r.cmd = false ∧ decode (.cmd r) = .illegalCommand r.cmd) := by
  cases h : decodeWord r.cmd with
  | read w => exact .inl ⟨w, rfl, by simp [decode, decodeCmd, h]⟩
  | write w => exact .inr (.inl ⟨w, rfl, by simp [decode, decodeCmd, h]⟩)
  | cycles t w => exact .inr (.inr (.inl ⟨t, w, rfl, by simp [decode, decodeCmd, h]⟩))
  | illegal c =>
    obtain ⟨rfl, hl⟩ := decodeWord_eq_illegal h
    exact .inr (.inr (.inr ⟨hl, by simp [decode, decodeCmd, h]⟩))

theorem decodeRp_cases (q : RpRequest) :
    (∃ n, q.len = n ∧ n ≠ 0 ∧ decode (.rp q) = .instr (.getBytes q.addr n)) ∨
    (∃ n, q.len = n ∧ n ≠ 0 ∧ decode (.rp q) = .instr (.getBytesMut q.addr n)) ∨
    (∃ d, Descriptor.ofCode q.desc = some d ∧ decode (.rp q) = .instr (.getCycles q.addr d)) ∨
    decode (.rp q) = .reservedPrimitive q.prim ∨ decode (.rp q) = .illegalDescriptor q.desc ∨
    decode (.rp q) = .zeroLength := by
  simp only [decode, decodeRp]
  split
  · simp
  · split
    · cases h : Descriptor.ofCode q.desc <;> simp
    · split
      · simp
      · next hn => split <;> simp [hn]

namespace Machine

/-- A command runs `readOp`, `writeOp` or `cyclesOp`, with its own word. -/
theorem exec_readInstr (w : AccessWidth) (a : Address) (s : State) :
    exec (readInstr w a) s = readOp (readInstr w a).word w a s := by cases w <;> rfl

theorem exec_writeInstr (w : AccessWidth) (a : Address) (v : Word) (s : State) :
    exec (writeInstr w a v) s = writeOp (writeInstr w a v).word w a v s := by cases w <;> rfl

theorem exec_cyclesInstr (t : AccessType) (w : AccessWidth) (a : Address) (s : State) :
    exec (cyclesInstr t w a) s = cyclesOp (combine t w) a s := by cases t <;> cases w <;> rfl

theorem readInstr_word (w : AccessWidth) (a : Address) : (readInstr w a).word = (readInstr w 0).word := by cases w <;> rfl

theorem writeInstr_word (w : AccessWidth) (a : Address) (v : Word) : (writeInstr w a v).word = (writeInstr w 0 0).word := by
  cases w <;> rfl

/-- Every instruction is a read, a write, a query, or one of the three primitives. -/
theorem instr_cases (i : Instr) :
    (∃ w a, i = readInstr w a) ∨ (∃ w a v, i = writeInstr w a v) ∨ (∃ t w a, i = cyclesInstr t w a) ∨
    (∃ a n, i = .getBytes a n) ∨ (∃ a n, i = .getBytesMut a n) ∨ (∃ a d, i = .getCycles a d) := by
  cases i with
  | read8 a => exact .inl ⟨.w8, a, rfl⟩
  | read16 a => exact .inl ⟨.w16, a, rfl⟩
  | read32 a => exact .inl ⟨.w32, a, rfl⟩
  | write8 a v => exact .inr (.inl ⟨.w8, a, v, rfl⟩)
  | write16 a v => exact .inr (.inl ⟨.w16, a, v, rfl⟩)
  | write32 a v => exact .inr (.inl ⟨.w32, a, v, rfl⟩)
  | cyclesN8 a => exact .inr (.inr (.inl ⟨.nonSequential, .w8, a, rfl⟩))
  | cyclesN16 a => exact .inr (.inr (.inl ⟨.nonSequential, .w16, a, rfl⟩))
  | cyclesN32 a => exact .inr (.inr (.inl ⟨.nonSequential, .w32, a, rfl⟩))
  | cyclesS8 a => exact .inr (.inr (.inl ⟨.sequential, .w8, a, rfl⟩))
  | cyclesS16 a => exact .inr (.inr (.inl ⟨.sequential, .w16, a, rfl⟩))
  | cyclesS32 a => exact .inr (.inr (.inl ⟨.sequential, .w32, a, rfl⟩))
  | getBytes a n => exact .inr (.inr (.inr (.inl ⟨a, n, rfl⟩)))
  | getBytesMut a n => exact .inr (.inr (.inr (.inr (.inl ⟨a, n, rfl⟩))))
  | getCycles a d => exact .inr (.inr (.inr (.inr (.inr ⟨a, d, rfl⟩))))

/-- What a master request decodes to, with its word. -/
theorem instr_of_request {r : Request} {i : Instr} (h : decode (.cmd r) = .instr i) :
    (∃ w, i = readInstr w r.addr ∧ i.word = r.cmd) ∨ (∃ w, i = writeInstr w r.addr r.wdata ∧ i.word = r.cmd) ∨
    (∃ t w, i = cyclesInstr t w r.addr) := by
  rcases decodeCmd_cases r with ⟨w, hw, hd⟩ | ⟨w, hw, hd⟩ | ⟨t, w, -, hd⟩ | ⟨-, hd⟩
  · rw [hd] at h; cases h
    refine .inl ⟨w, rfl, ?_⟩
    rw [readInstr_word]
    exact word_of_decodeWord.1 _ _ hw
  · rw [hd] at h; cases h
    refine .inr (.inl ⟨w, rfl, ?_⟩)
    rw [writeInstr_word]
    exact word_of_decodeWord.2.1 _ _ hw
  · rw [hd] at h; cases h
    exact .inr (.inr ⟨t, w, rfl⟩)
  · rw [hd] at h; cases h

/-- A master request's instruction is a command. -/
theorem isCommand_of_request {r : Request} {i : Instr} (h : decode (.cmd r) = .instr i) : i.isCommand = true := by
  rcases instr_of_request h with ⟨w, rfl, -⟩ | ⟨w, rfl, -⟩ | ⟨t, w, rfl⟩
  · cases w <;> rfl
  · cases w <;> rfl
  · cases t <;> cases w <;> rfl

/-! ### The step by what its next request is -/

/-- While `FR.valid` = 1 no instruction but GETCYCLES has a step (R140; log entry 16). -/
theorem exec_stopped {s : State} (h : s.fr.valid = 1#1) {i : Instr} (hi : ∀ a d, i ≠ .getCycles a d) :
    exec i s = .fault (.stopped s) := by
  cases i <;> first | exact absurd rfl (hi _ _) | exact whenRunning_stopped h _

theorem ne_getCycles_of_command {i : Instr} (hi : i.isCommand = true) (a : Address) (d : Descriptor) : i ≠ .getCycles a d := by
  rintro rfl
  cases hi

theorem step_stopped {s : State} (h : s.fr.valid = 1#1) (hc : ∀ q rest, s.commands ≠ .rp q :: rest) :
    step s = .fault (.stopped s) := by
  rcases hs : s.commands with - | ⟨r | q, rest⟩
  · simp [step, h, State.fetch, hs]
  · simp [step, h, State.fetch, hs]
  · exact absurd hs (hc q rest)

theorem step_idle {s : State} (h : s.fr.valid ≠ 1#1) (hc : s.commands = []) : step s = .next s := by
  simp [step, h, State.fetch, hc]

/-- A step runs the decoded instruction, on a stopped controller too: there a command's own meaning has no step. -/
theorem step_instr {s : State} {x : Issue} {rest : List Issue} (hc : s.commands = x :: rest) {i : Instr}
    (hd : decode x = .instr i) : step s = retireOutcome x (exec i s) := by
  cases x with
  | rp q => simp [step, State.fetch, hc, hd]
  | cmd r =>
    by_cases h : s.fr.valid = 1#1
    · rw [step_stopped h (by simp [hc]), exec_stopped h (ne_getCycles_of_command (isCommand_of_request hd))]
      rfl
    · simp [step, h, State.fetch, hc, hd]

theorem step_illegal {s : State} (h : s.fr.valid ≠ 1#1) {r : Request} {rest : List Issue} (hc : s.commands = .cmd r :: rest)
    (hl : legal r.cmd = false) : step s = raiseIllegal r s := by
  have hd : decode (.cmd r) = .illegalCommand r.cmd := by simp [decode, decodeCmd, decodeWord_illegal hl]
  simp [step, h, State.fetch, hc, hd]

/-- Everything a step can do. -/
theorem step_cases (s : State) :
    (s.fr.valid = 1#1 ∧ (∀ q rest, s.commands ≠ .rp q :: rest) ∧ step s = .fault (.stopped s)) ∨
    (s.fr.valid ≠ 1#1 ∧ s.commands = [] ∧ step s = .next s) ∨
    (∃ x rest i, s.commands = x :: rest ∧ decode x = .instr i ∧ step s = retireOutcome x (exec i s)) ∨
    (s.fr.valid ≠ 1#1 ∧ ∃ r rest, s.commands = .cmd r :: rest ∧ legal r.cmd = false ∧ step s = raiseIllegal r s) ∨
    (∃ q rest e, s.commands = .rp q :: rest ∧ step s = .refused e) := by
  rcases hc : s.commands with - | ⟨r | q, rest⟩
  · by_cases h : s.fr.valid = 1#1
    · exact .inl ⟨h, nofun, step_stopped h (by simp [hc])⟩
    · exact .inr (.inl ⟨h, rfl, step_idle h hc⟩)
  · rcases decodeCmd_cases r with ⟨w, -, hd⟩ | ⟨w, -, hd⟩ | ⟨t, w, -, hd⟩ | ⟨hl, -⟩
    · exact .inr (.inr (.inl ⟨_, _, _, rfl, hd, step_instr hc hd⟩))
    · exact .inr (.inr (.inl ⟨_, _, _, rfl, hd, step_instr hc hd⟩))
    · exact .inr (.inr (.inl ⟨_, _, _, rfl, hd, step_instr hc hd⟩))
    · by_cases h : s.fr.valid = 1#1
      · exact .inl ⟨h, nofun, step_stopped h (by simp [hc])⟩
      · exact .inr (.inr (.inr (.inl ⟨h, r, rest, rfl, hl, step_illegal h hc hl⟩)))
  · rcases decodeRp_cases q with ⟨n, -, -, hd⟩ | ⟨n, -, -, hd⟩ | ⟨d, -, hd⟩ | hd | hd | hd
    · exact .inr (.inr (.inl ⟨_, _, _, rfl, hd, step_instr hc hd⟩))
    · exact .inr (.inr (.inl ⟨_, _, _, rfl, hd, step_instr hc hd⟩))
    · exact .inr (.inr (.inl ⟨_, _, _, rfl, hd, step_instr hc hd⟩))
    all_goals exact .inr (.inr (.inr (.inr ⟨q, rest, _, rfl, by simp [step, State.fetch, hc, hd]; rfl⟩)))

end Machine

end Sys2Proof
end

