-- ==== Sys2Proof/Laws/Exec.lean ====
section
/-! SUPPORT. The terms of Safety.lean in the operations' own terms, and everything an instruction or a step keeps when it
answers a next state or a fault. -/

namespace Sys2Proof

theorem Region.covers_locate {r : Region} {a : Address} {n i : Nat} : r.Covers a n i ↔ r.locate a n = some i := by
  rw [Region.locate_eq_some, Region.Covers]
  tauto

theorem Region.not_covers {r : Region} {a : Address} {n : Nat} : (∀ i, ¬r.Covers a n i) ↔ r.covers a n = false := by
  rw [← Region.locate_eq_none, Option.eq_none_iff_forall_ne_some]
  exact forall_congr' fun i => not_congr Region.covers_locate

namespace Machine

theorem View.overlaps_iff (u v : View) :
    u.overlaps v = true ↔ u.start < v.start + v.len ∧ v.start < u.start + u.len := by
  simp [View.overlaps]

theorem free_writers_iff {s : State} {i n : Nat} :
    s.FreeOfWriters i n ↔ conflicts ⟨.imm, i, n⟩ s.views = false := by
  simp only [State.FreeOfWriters, conflicts, List.any_eq_false, Bool.and_eq_true, View.overlaps_iff]
  refine forall₂_congr fun u _ => ?_
  cases u.kind <;> simp

theorem free_views_iff {s : State} {i n : Nat} :
    s.FreeOfViews i n ↔ conflicts ⟨.mut, i, n⟩ s.views = false := by
  simp only [State.FreeOfViews, conflicts, List.any_eq_false, Bool.and_eq_true, View.overlaps_iff]
  refine forall₂_congr fun u _ => ?_
  cases u.kind <;> simp

/-- The lengths of the three widths fit in FR.len (R29). -/
theorem recordLen_bytes (w : AccessWidth) (d : Nat) : recordLen w.bytes d = BitVec.ofNat 3 w.bytes := by
  cases w <;> rfl

/-- What an instruction that answers a next state keeps, whichever it is. -/
theorem exec_next_keeps {i : Instr} {s t : State} (h : exec i s = .next t) :
    t.region = s.region ∧ t.fr = s.fr ∧ t.commands = s.commands ∧ t.pos = s.pos ∧ t.responses = s.responses ∧
      t.draws = s.draws := by
  rcases instr_cases i with ⟨w, a, rfl⟩ | ⟨w, a, v, rfl⟩ | ⟨ty, w, a, rfl⟩ | ⟨a, n, rfl⟩ | ⟨a, n, rfl⟩ | ⟨a, d, rfl⟩
  · rw [exec_readInstr] at h
    obtain ⟨-, i, -, -, rfl⟩ := readOp_eq_next h
    exact ⟨rfl, rfl, rfl, rfl, rfl, rfl⟩
  · rw [exec_writeInstr] at h
    obtain ⟨-, i, -, -, rfl⟩ := writeOp_eq_next h
    exact ⟨rfl, rfl, rfl, rfl, rfl, rfl⟩
  · rw [exec_cyclesInstr] at h
    obtain ⟨-, rfl⟩ := cyclesOp_eq_next h
    exact ⟨rfl, rfl, rfl, rfl, rfl, rfl⟩
  · obtain ⟨-, i, -, -, -, rfl⟩ := viewPrimitive_eq_next h
    exact ⟨rfl, rfl, rfl, rfl, rfl, rfl⟩
  · obtain ⟨-, i, -, -, -, rfl⟩ := viewPrimitive_eq_next h
    exact ⟨rfl, rfl, rfl, rfl, rfl, rfl⟩
  · obtain rfl := cyclesPrimitive_eq_next h
    exact ⟨rfl, rfl, rfl, rfl, rfl, rfl⟩

/-- On a stopped controller only GETCYCLES answers a next state. -/
theorem exec_next_running {i : Instr} {s t : State} (h : exec i s = .next t) :
    s.fr.valid ≠ 1#1 ∨ ∃ a d, i = .getCycles a d := by
  by_contra! hc
  rw [exec_stopped hc.1 hc.2] at h
  cases h

/-- What an instruction does to the live views. -/
theorem exec_next_views {i : Instr} {s t : State} (h : exec i s = .next t) :
    t.views = [] ∨ (i.isCommand = false ∧ (t.views = s.views ∨
      ∃ v, conflicts v s.views = false ∧ 1 ≤ v.len ∧ v.start + v.len ≤ s.region.cap ∧ t.views = s.views ++ [v])) := by
  rcases instr_cases i with ⟨w, a, rfl⟩ | ⟨w, a, v, rfl⟩ | ⟨ty, w, a, rfl⟩ | ⟨a, n, rfl⟩ | ⟨a, n, rfl⟩ | ⟨a, d, rfl⟩
  · rw [exec_readInstr] at h
    obtain ⟨-, i, -, -, rfl⟩ := readOp_eq_next h
    exact .inl rfl
  · rw [exec_writeInstr] at h
    obtain ⟨-, i, -, -, rfl⟩ := writeOp_eq_next h
    exact .inl rfl
  · rw [exec_cyclesInstr] at h
    obtain ⟨-, rfl⟩ := cyclesOp_eq_next h
    exact .inl rfl
  · obtain ⟨-, i, hn, hl, hv, rfl⟩ := viewPrimitive_eq_next h
    exact .inr ⟨rfl, .inr ⟨_, hv, Nat.pos_of_ne_zero hn, (Region.locate_eq_some.mp hl).2.2, rfl⟩⟩
  · obtain ⟨-, i, hn, hl, hv, rfl⟩ := viewPrimitive_eq_next h
    exact .inr ⟨rfl, .inr ⟨_, hv, Nat.pos_of_ne_zero hn, (Region.locate_eq_some.mp hl).2.2, rfl⟩⟩
  · obtain rfl := cyclesPrimitive_eq_next h
    exact .inr ⟨rfl, .inl rfl⟩

/-- A command that answers a next state leaves no view live (R90). -/
theorem exec_command_views {i : Instr} {s t : State} (hi : i.isCommand = true) (h : exec i s = .next t) : t.views = [] := by
  rcases exec_next_views h with hv | ⟨hp, -⟩
  · exact hv
  · rw [hi] at hp; cases hp

/-- Everything a fault of an instruction can be. -/
theorem exec_eq_fault {i : Instr} {s : State} {f : Fault} (h : exec i s = .fault f) :
    (s.fr.valid = 1#1 ∧ f = .stopped s) ∨ (s.fr.valid ≠ 1#1 ∧ ∃ c cmd a n p,
      (c = Cause.rangeFault ∨ c = Cause.aliasViolation) ∧ p ≠ noPrim ∧ f = c.fault (raise c cmd a n p s)) := by
  rcases instr_cases i with ⟨w, a, rfl⟩ | ⟨w, a, v, rfl⟩ | ⟨ty, w, a, rfl⟩ | ⟨a, n, rfl⟩ | ⟨a, n, rfl⟩ | ⟨a, d, rfl⟩
  · rw [exec_readInstr] at h
    exact (readOp_eq_fault h).imp_right fun ⟨hs, c, hc, hf⟩ => ⟨hs, c, _, _, _, _, hc, by decide, hf⟩
  · rw [exec_writeInstr] at h
    exact (writeOp_eq_fault h).imp_right fun ⟨hs, c, hc, hf⟩ => ⟨hs, c, _, _, _, _, hc, by decide, hf⟩
  · rw [exec_cyclesInstr] at h
    exact .inl (cyclesOp_eq_fault h)
  · exact (viewPrimitive_eq_fault h).imp_right fun ⟨hs, c, hc, hf⟩ => ⟨hs, c, _, _, _, _, hc, by decide, hf⟩
  · exact (viewPrimitive_eq_fault h).imp_right fun ⟨hs, c, hc, hf⟩ => ⟨hs, c, _, _, _, _, hc, by decide, hf⟩
  · exact absurd h cyclesPrimitive_ne_fault

/-- If a step answers a next state, it was idle or it completed the next request. -/
theorem step_eq_next {s t : State} (h : step s = .next t) :
    (s.fr.valid ≠ 1#1 ∧ s.commands = [] ∧ t = s) ∨
      ∃ x rest i u, s.commands = x :: rest ∧ decode x = .instr i ∧ exec i s = .next u ∧ t = retire x u := by
  rcases step_cases s with ⟨-, -, he⟩ | ⟨hs, hn, he⟩ | ⟨x, rest, i, hc, hd, he⟩ | ⟨-, r, rest, -, -, he⟩ | ⟨q, rest, e, -, he⟩
  · rw [he] at h; cases h
  · rw [he] at h; cases h
    exact .inl ⟨hs, hn, rfl⟩
  · rw [he] at h
    obtain ⟨u, hu, ht⟩ := andThen_eq_next h
    cases ht
    exact .inr ⟨x, rest, i, u, hc, hd, hu, rfl⟩
  · rw [he] at h; cases h
  · rw [he] at h; cases h

/-- If a step faults, it was stopped or it entered a fatal fault (R138). -/
theorem step_eq_fault {s : State} {f : Fault} (h : step s = .fault f) :
    (s.fr.valid = 1#1 ∧ f = .stopped s) ∨
      (s.fr.valid ≠ 1#1 ∧ ∃ c cmd a n p, f = Cause.fault c (raise c cmd a n p s)) := by
  rcases step_cases s with ⟨hs, -, he⟩ | ⟨-, -, he⟩ | ⟨x, rest, i, -, -, he⟩ | ⟨hs, r, rest, -, -, he⟩ | ⟨q, rest, e, -, he⟩
  · rw [he] at h; cases h
    exact .inl ⟨hs, rfl⟩
  · rw [he] at h; cases h
  · rw [he] at h
    rcases andThen_eq_fault h with h | ⟨v, -, hv⟩
    · exact (exec_eq_fault h).imp_right fun ⟨hs, c, cmd, a, n, p, _, _, hf⟩ => ⟨hs, c, cmd, a, n, p, hf⟩
    · cases hv
  · rw [he] at h; cases h
    exact .inr ⟨hs, _, _, _, _, _, rfl⟩
  · rw [he] at h; cases h

end Machine

end Sys2Proof
end

