-- ==== Sys2Proof/Laws/PerInstr.lean ====
section
/-! SUPPORT. The per-instruction family WordReserved: the word the encoder gives an instruction is one its port accepts. A
command's word is legal by R68; a region-port word has its reserved bits 0 and a primitive selected (R67). -/

namespace Sys2Proof.Laws.WordReserved

def Statement (i : Instr) : Prop :=
  (i.isCommand = true ∧ legal i.word = true ∧ ∃ r : Request, encode i = .cmd r ∧ r.cmd = i.word) ∨
  (i.isCommand = false ∧ i.word.extractLsb' 2 6 = 0#6 ∧ i.word.extractLsb' 0 2 ≠ 0b11#2 ∧
    ∃ q : RpRequest, encode i = .rp q ∧ q.prim = i.word)

/-- The twelve words of R69 are legal. -/
theorem legal_words : ∀ c ∈ [0x00#8, 0x01#8, 0x02#8, 0x08#8, 0x09#8, 0x0A#8, 0x10#8, 0x11#8, 0x12#8, 0x14#8, 0x15#8, 0x16#8],
    legal c = true := by decide

theorem of_command {i : Instr} (hc : i.isCommand = true) : Statement i := by
  have hl : legal i.word = true := by
    apply legal_words
    cases i <;> simp [Instr.word]
  refine .inl ⟨hc, hl, ?_⟩
  cases i <;> first | exact ⟨_, rfl, rfl⟩ | cases hc

theorem of_primitive {i : Instr} (hc : i.isCommand = false) : Statement i := by
  refine .inr ⟨hc, ?_⟩
  cases i <;> first | exact ⟨by simp [Instr.word], by simp [Instr.word], _, rfl, rfl⟩ | cases hc

theorem read8 (addr : Address) : Statement (.read8 addr) := of_command rfl
theorem read16 (addr : Address) : Statement (.read16 addr) := of_command rfl
theorem read32 (addr : Address) : Statement (.read32 addr) := of_command rfl
theorem write8 (addr : Address) (wdata : Word) : Statement (.write8 addr wdata) := of_command rfl
theorem write16 (addr : Address) (wdata : Word) : Statement (.write16 addr wdata) := of_command rfl
theorem write32 (addr : Address) (wdata : Word) : Statement (.write32 addr wdata) := of_command rfl
theorem cyclesN8 (addr : Address) : Statement (.cyclesN8 addr) := of_command rfl
theorem cyclesN16 (addr : Address) : Statement (.cyclesN16 addr) := of_command rfl
theorem cyclesN32 (addr : Address) : Statement (.cyclesN32 addr) := of_command rfl
theorem cyclesS8 (addr : Address) : Statement (.cyclesS8 addr) := of_command rfl
theorem cyclesS16 (addr : Address) : Statement (.cyclesS16 addr) := of_command rfl
theorem cyclesS32 (addr : Address) : Statement (.cyclesS32 addr) := of_command rfl
theorem getBytes (addr : Address) (len : Nat) : Statement (.getBytes addr len) := of_primitive rfl
theorem getBytesMut (addr : Address) (len : Nat) : Statement (.getBytesMut addr len) := of_primitive rfl
theorem getCycles (addr : Address) (desc : Descriptor) : Statement (.getCycles addr desc) := of_primitive rfl

end Sys2Proof.Laws.WordReserved
end

