-- ==== Sys2Proof/Tests/Slice0.lean ====
section
/-! SUPPORT. The model's own tests: the checks that refuse ill-formed terms, words written out bit by bit from R69, single steps
with the results of 95_test_vectors.md, and a witness for the hypotheses of every obligation. -/

open Sys2Proof Sys2Proof.Machine

namespace Sys2Proof.Tests

/-! ### The states of 95_test_vectors.md -/

/-- `EX_CYC`. -/
def exCycles : CycleTable := CycleTable.uniform ⟨5, 5, 8, 3, 3, 6⟩

/-- The bytes of L2: 0x00, 0x11, …, 0x77. -/
def exBytes : Memory := [(1, 0x11#8), (2, 0x22#8), (3, 0x33#8), (4, 0x44#8), (5, 0x55#8), (6, 0x66#8), (7, 0x77#8)]

/-- The state of L2: `IDX_lin(0x100, 8)`, `FR` clean. -/
def ex : State := State.resetOf (Region.linear 0x100 8 exCycles exBytes)

/-- The state at the top of the address space of L2.4: `IDX_lin(0xFFFFFFFC, 4)`. -/
def top : State := State.resetOf (Region.linear 0xFFFFFFFC 4 exCycles [(0, 1#8), (1, 2#8), (2, 3#8), (3, 4#8)])

/-- The mirrored region of P2: four bytes, four times. -/
def mirror : State :=
  State.resetOf ⟨4, [⟨0, 0, 4⟩, ⟨4, 0, 4⟩, ⟨8, 0, 4⟩, ⟨12, 0, 4⟩], exCycles, [(0, 0x44#8), (1, 0x33#8), (2, 0x22#8), (3, 0x11#8)]⟩

/-- The same state with views live, as only a model of the region alone has them. -/
def withViews (vs : List View) : State := { ex with views := vs }

/-- The same state, stopped. -/
def halted : State := { ex with fr := ⟨1#1, 1#4, 0x02#8, 0x105#32, 4#3, 0#2⟩ }

/-- The state of L2 with one master request to issue. -/
def issue (c : BitVec 8) (a : Address) (d : Word) : State := ex.load [.cmd ⟨c, a, d⟩]

/-- The outcome is a next state of which `p` holds. -/
def after (o : Host.Outcome State Fault Refusal) (p : State → Bool) : Bool :=
  match o with
  | .next t => p t
  | .fault _ => false
  | .refused _ => false

/-- What a fault is: entered for a cause, the stop of a stopped controller, or a read of an empty response field. -/
def kindOf : Fault → Option Cause × Bool
  | .rangeFault _ => (some .rangeFault, false)
  | .illegalCommand _ => (some .illegalCommand, false)
  | .aliasViolation _ => (some .aliasViolation, false)
  | .stopped _ => (none, true)
  | .noResponseField _ => (none, false)

/-- The outcome is a fault of this cause, in a state of which `p` holds. -/
def faulted (o : Host.Outcome State Fault Refusal) (c : Cause) (p : State → Bool) : Bool :=
  match o with
  | .next _ => false
  | .fault f => kindOf f == (some c, false) && p f.state
  | .refused _ => false

/-- The outcome is this refusal. -/
def refusedAs (o : Host.Outcome State Fault Refusal) (r : Refusal) : Bool :=
  match o with
  | .next _ => false
  | .fault _ => false
  | .refused q => decide (q = r)

/-! ### The checks refuse ill-formed terms -/

theorem test_wellFormed_refuses_getBytes_of_length_zero : (Instr.getBytes 0x100#32 0).wellFormed = false := by decide

theorem test_wellFormed_refuses_getBytesMut_of_length_zero : (Instr.getBytesMut 0x100#32 0).wellFormed = false := by decide

theorem test_wellFormed_accepts_length_one : (Instr.getBytes 0x100#32 1).wellFormed = true := by decide

/-- A window past the end of storage breaks `REGION_WF`. -/
theorem test_check_refuses_window_past_capacity : (Region.mk 4 [⟨0, 0, 5⟩] exCycles []).check = false := by decide

/-- A window that ends in the middle of storage, with no window after it, breaks the second clause of `REGION_WF`. -/
theorem test_check_refuses_broken_stretch : (Region.mk 4 [⟨0, 0, 2⟩] exCycles []).check = false := by decide

theorem test_check_refuses_overlap : (Region.mk 4 [⟨0, 0, 4⟩, ⟨2, 0, 4⟩] exCycles []).check = false := by decide

theorem test_check_refuses_contents_past_capacity : (Region.mk 4 [⟨0, 0, 4⟩] exCycles [(4, 1#8)]).check = false := by decide

theorem test_check_accepts_mirror : mirror.region.check = true := by decide

theorem test_boot_refuses : refusedAs (State.boot (Region.mk 4 [⟨0, 0, 5⟩] exCycles [])) .regionIllFormed = true := by decide

/-! ### Decoding: the words of R69 by their fields RSV, OP, T, W, and of R67 -/

theorem test_decode_read : decode (.cmd ⟨0b00000000#8, 0x3#32, 0#32⟩) = .instr (.read8 0x3#32) ∧
    decode (.cmd ⟨0b00000001#8, 0x3#32, 0#32⟩) = .instr (.read16 0x3#32) ∧
    decode (.cmd ⟨0b00000010#8, 0x3#32, 0#32⟩) = .instr (.read32 0x3#32) := by decide

theorem test_decode_write : decode (.cmd ⟨0b00001000#8, 0x3#32, 0xCAFE0034#32⟩) = .instr (.write8 0x3#32 0xCAFE0034#32) ∧
    decode (.cmd ⟨0b00001001#8, 0xD#32, 0xAABB#32⟩) = .instr (.write16 0xD#32 0xAABB#32) ∧
    decode (.cmd ⟨0b00001010#8, 0x0#32, 0xDEADBEEF#32⟩) = .instr (.write32 0x0#32 0xDEADBEEF#32) := by decide

theorem test_decode_cycles_nonsequential : decode (.cmd ⟨0b00010000#8, 0x100#32, 0#32⟩) = .instr (.cyclesN8 0x100#32) ∧
    decode (.cmd ⟨0b00010001#8, 0x101#32, 0#32⟩) = .instr (.cyclesN16 0x101#32) ∧
    decode (.cmd ⟨0b00010010#8, 0xFFFFFFFF#32, 0#32⟩) = .instr (.cyclesN32 0xFFFFFFFF#32) := by decide

theorem test_decode_cycles_sequential : decode (.cmd ⟨0b00010100#8, 0x100#32, 0#32⟩) = .instr (.cyclesS8 0x100#32) ∧
    decode (.cmd ⟨0b00010101#8, 0x102#32, 0#32⟩) = .instr (.cyclesS16 0x102#32) ∧
    decode (.cmd ⟨0b00010110#8, 0x104#32, 0#32⟩) = .instr (.cyclesS32 0x104#32) := by decide

theorem test_decode_primitives : decode (.rp ⟨0b00000000#8, 0x100#32, 4, 0b111#3⟩) = .instr (.getBytes 0x100#32 4) ∧
    decode (.rp ⟨0b00000001#8, 0x102#32, 2, 0b111#3⟩) = .instr (.getBytesMut 0x102#32 2) ∧
    decode (.rp ⟨0b00000010#8, 0x100#32, 0, 0b010#3⟩) = .instr (.getCycles 0x100#32 ⟨.nonSequential, .w32⟩) ∧
    decode (.rp ⟨0b00000011#8, 0x100#32, 1, 0#3⟩) = .reservedPrimitive 0x03#8 := by decide

/-- The illegal words of L2.1. -/
theorem test_decode_illegal :
    ([0x03#8, 0x04#8, 0x07#8, 0x0C#8, 0x13#8, 0x17#8, 0x18#8, 0x1F#8, 0x20#8, 0x80#8, 0xFF#8].all fun c =>
      decode (.cmd ⟨c, 0x100#32, 0#32⟩) == .illegalCommand c) = true := by decide

/-- The host's words, with the operand bits above the command word 0. -/
theorem test_decodeTableWord : decodeTableWord 8 0x0A = some (.write32 0#32 0#32) ∧ decodeTableWord 8 0x04 = none ∧
    decodeTableWord 72 0xDEADBEEF000001000A = some (.write32 0x100#32 0xDEADBEEF#32) := by decide

/-- `combine` of L2.2. -/
theorem test_combine : (combine .nonSequential .w16).code = 0b001#3 ∧ (combine .sequential .w32).code = 0b110#3 := by decide

/-- A value wider than the command's width is an assembly error (R73). -/
theorem test_assemble : assemble ⟨"WRITE8", [0x3, 0x100]⟩ = none ∧ assemble ⟨"WRITE8", [0x3, 0xFF]⟩ = some (.write8 0x3#32 0xFF#32) ∧
    assemble ⟨"CYCLES.S16", [0x102]⟩ = some (.cyclesS16 0x102#32) := by decide

/-! ### Single steps of L2 -/

theorem test_read8_last_byte : after (exec (.read8 0x107#32) ex) (fun t => t.rsp == ⟨some 0x77#32, none, none⟩) = true := by decide

theorem test_read8_unowned : faulted (exec (.read8 0x108#32) ex) .rangeFault
    (fun t => t.fr == ⟨1#1, 1#4, 0x00#8, 0x108#32, 1#3, 0#2⟩) = true := by decide

theorem test_read16_misaligned : after (exec (.read16 0x101#32) ex) (fun t => t.rsp.rdata == some 0x2211#32) = true := by decide

theorem test_read16_half_covered : faulted (exec (.read16 0x107#32) ex) .rangeFault
    (fun t => t.fr == ⟨1#1, 1#4, 0x01#8, 0x107#32, 2#3, 0#2⟩) = true := by decide

theorem test_read32_misaligned : after (exec (.read32 0x103#32) ex) (fun t => t.rsp.rdata == some 0x66554433#32) = true := by decide

theorem test_read32_top_of_space : after (exec (.read32 0xFFFFFFFC#32) top) (fun t => t.rsp.rdata == some 0x04030201#32) = true ∧
    faulted (exec (.read32 0xFFFFFFFD#32) top) .rangeFault (fun _ => true) = true := by decide

theorem test_write8_ignores_upper_bits : after (exec (.write8 0x100#32 0xFFFFFFAB#32) ex)
    (fun t => t.storage == (0, 0xAB#8) :: exBytes && t.rsp == ⟨none, none, some 0#1⟩) = true := by decide

theorem test_write16_misaligned : after (exec (.write16 0x103#32 0xBEEF#32) ex)
    (fun t => t.storage == [(1, 0x11#8), (2, 0x22#8), (3, 0xEF#8), (4, 0xBE#8), (5, 0x55#8), (6, 0x66#8), (7, 0x77#8)]) = true := by
  decide

theorem test_write16_half_covered_writes_nothing : faulted (exec (.write16 0x107#32 0xBEEF#32) ex) .rangeFault
    (fun t => t.storage == exBytes && t.fr == ⟨1#1, 1#4, 0x09#8, 0x107#32, 2#3, 1#2⟩) = true := by decide

/-- Writing zeros takes the entries out: the contents stay in canonical form. -/
theorem test_write32_zero : after (exec (.write32 0x104#32 0#32) ex)
    (fun t => t.storage == [(1, 0x11#8), (2, 0x22#8), (3, 0x33#8)]) = true := by decide

theorem test_write32_uncovered : faulted (exec (.write32 0x105#32 0x12345678#32) ex) .rangeFault
    (fun t => t.storage == exBytes && t.fr == ⟨1#1, 1#4, 0x0A#8, 0x105#32, 4#3, 1#2⟩) = true := by decide

/-- P2, command 2: a read at the mirror address. -/
theorem test_mirror_read8 : after (exec (.read8 0x5#32) mirror) (fun t => t.rsp.rdata == some 0x33#32) = true ∧
    faulted (exec (.read16 0x3#32) mirror) .rangeFault (fun _ => true) = true := by decide

theorem test_cycles_nonsequential : after (exec (.cyclesN8 0x100#32) ex) (fun t => t.rsp == ⟨none, some 5, none⟩) = true ∧
    after (exec (.cyclesN16 0x101#32) ex) (fun t => t.rsp.cyc == some 5) = true ∧
    after (exec (.cyclesN32 0xFFFFFFFF#32) ex) (fun t => t.rsp.cyc == some 8) = true := by decide

theorem test_cycles_sequential : after (exec (.cyclesS8 0x100#32) ex) (fun t => t.rsp.cyc == some 3) = true ∧
    after (exec (.cyclesS16 0x102#32) ex) (fun t => t.rsp.cyc == some 3) = true ∧
    after (exec (.cyclesS32 0x104#32) ex) (fun t => t.rsp.cyc == some 6) = true := by decide

theorem test_getBytes_ends_at_capacity : after (exec (.getBytes 0x104#32 4) ex)
    (fun t => t.views == [⟨.imm, 4, 4⟩] && viewBytes t.storage ⟨.imm, 4, 4⟩ == [0x44#8, 0x55#8, 0x66#8, 0x77#8]) = true := by decide

theorem test_getBytes_alias : faulted (exec (.getBytes 0x103#32 1) (withViews [⟨.mut, 2, 2⟩])) .aliasViolation
    (fun t => t.fr.code == 3#4) = true ∧
    after (exec (.getBytes 0x104#32 1) (withViews [⟨.mut, 2, 2⟩])) (fun t => t.primRsp == some (.view ⟨.imm, 4, 1⟩)) = true := by decide

theorem test_getBytesMut_alias : faulted (exec (.getBytesMut 0x100#32 1) (withViews [⟨.imm, 0, 4⟩])) .aliasViolation
    (fun t => t.storage == exBytes) = true := by decide

theorem test_getBytesMut_then_write :
    ((withViews [⟨.mut, 2, 2⟩]).viewWrite ⟨.mut, 2, 2⟩ 1 0xBB#8).map State.storage =
      some [(1, 0x11#8), (2, 0x22#8), (3, 0xBB#8), (4, 0x44#8), (5, 0x55#8), (6, 0x66#8), (7, 0x77#8)] ∧
    (withViews [⟨.mut, 2, 2⟩]).viewWrite ⟨.mut, 2, 2⟩ 2 0xBB#8 = none := by decide

theorem test_getCycles : after (exec (.getCycles 0x000#32 ⟨.nonSequential, .w8⟩) ex) (fun t => t.primRsp == some (.cycles 5)) = true := by
  decide

/-- L2.6: decode is checked before the range. -/
theorem test_step_illegal_before_range : faulted (step (issue 0x0B#8 0x107#32 0#32)) .illegalCommand
    (fun t => t.fr == ⟨1#1, 2#4, 0x0B#8, 0x107#32, 0#3, 3#2⟩ && t.storage == exBytes) = true := by decide

theorem test_step_stopped : (match step { halted with commands := [.cmd ⟨0x00#8, 0x100#32, 0#32⟩] } with
    | .next _ => false
    | .fault f => kindOf f == (none, true) && f.state.fr == halted.fr && f.state.pos == 0
    | .refused _ => false) = true := by decide

/-- R91 and R140 on a stopped controller: the region still answers GETCYCLES, and writes through no view. -/
theorem test_stopped_region : after (exec (.getCycles 0x000#32 ⟨.nonSequential, .w8⟩) halted)
    (fun t => t.primRsp == some (.cycles 5) && t.fr == halted.fr) = true ∧
    State.viewWrite { halted with views := [⟨.mut, 2, 2⟩] } ⟨.mut, 2, 2⟩ 0 0xAA#8 = none := by decide

theorem test_step_answers : after (step (issue 0x02#8 0x100#32 0#32))
    (fun t => t.responses == [⟨some 0x33221100#32, none, none⟩] && t.pos == 1 && t.commands == []) = true := by decide

/-- L2.7. -/
theorem test_reset_clears : (applyReset halted).fr = ⟨0#1, 0#4, 0x00#8, 0#32, 0#3, 3#2⟩ ∧ (applyReset halted).storage = exBytes := by
  decide

theorem test_response_field_not_produced : (match ex.readWerr with
    | .next _ => false
    | .fault f => kindOf f == (none, false)
    | .refused _ => false) = true := by decide

/-! ### Witnesses: one for the hypotheses of each obligation, at the boundary of each clause -/

theorem ex_covers {a : Address} {n i : Nat} (h : ex.region.locate a n = some i) : ex.region.Covers a n i :=
  Region.covers_locate.mpr h

theorem ex_not_covers {a : Address} {n : Nat} (h : ex.region.covers a n = false) : ∀ i, ¬ex.region.Covers a n i :=
  Region.not_covers.mpr h

theorem free_of_no_views {s : State} (h : s.views = []) (i n : Nat) : s.FreeOfViews i n ∧ s.FreeOfWriters i n := by
  rw [free_views_iff, free_writers_iff, h]
  exact ⟨rfl, rfl⟩

theorem ex_region_ok : ex.region.Ok := Region.check_sound (by decide)

theorem ex_inv : ex.Inv :=
  ⟨⟨ex_region_ok, ex_region_ok.init_wf, ex_region_ok.init_within, List.Pairwise.nil, by simp [ex], .inl ⟨rfl, rfl⟩,
    by simp [ex, Response.empty], by simp [ex]⟩, rfl⟩

theorem witness_DecodeOfEncodeIsTheInstruction : (Instr.getBytesMut 0xFFFFFFFF#32 1).wellFormed = true := by decide

theorem witness_EncodeOfDecodeIsTheRequest :
    decode (.cmd ⟨0x0A#8, 0x100#32, 0xDEADBEEF#32⟩) = .instr (.write32 0x100#32 0xDEADBEEF#32) ∧
    (∃ w, decodeWord 0x0A#8 = .write w) ∧ decode (.cmd ⟨0x16#8, 0x100#32, 1#32⟩) = .instr (.cyclesS32 0x100#32) :=
  ⟨by decide, ⟨.w32, decodeWord_write32⟩, by decide⟩

theorem witness_TableWordsDecodeToTheirInstructions : 1 ≤ 1 := by decide

theorem witness_TheOtherWordsAreIllegal : (issue 0x03#8 0x100#32 0#32).fr.valid = 0#1 ∧
    (issue 0x03#8 0x100#32 0#32).commands = .cmd ⟨0x03#8, 0x100#32, 0#32⟩ :: [] ∧ legal 0x03#8 = false ∧ 0x03#8 ≤ 0x03#8 := by
  decide

theorem witness_DescriptorsAreDistinct :
    (combine .sequential .w8).code = (Descriptor.mk .sequential .w8).code := by decide

theorem witness_AssemblerEmitsTheNamedCommand :
    assemble ⟨"WRITE16", [0xFFFFFFFF, 0xFFFF]⟩ = some (.write16 0xFFFFFFFF#32 0xFFFF#32) ∧ 0xFFFFFFFF < 2 ^ 32 := by decide

/-- The state of L2 stopped, with a primitive issued directly at its region. -/
def haltedDirect : State := halted.load [.rp ⟨0x02#8, 0x000#32, 0, 0#3⟩]

theorem witness_ResetLeavesTheResetState : halted.fr.valid = 1#1 ∧ haltedDirect.fr.valid = 1#1 ∧
    (∃ t, step haltedDirect = .next t) ∧ (∃ f, step halted = .fault f) ∧ (Instr.read8 0#32).isCommand = true :=
  ⟨rfl, rfl, ⟨_, rfl⟩, ⟨_, rfl⟩, rfl⟩

theorem witness_InvariantHoldsAtReset : ∃ t, State.boot ex.region = .next t := ⟨ex, by rfl⟩

theorem witness_BindingNeedsAWellFormedRegion : (∃ t, State.boot mirror.region = .next t) ∧ 0xFFFFFFFC + 4 ≤ 2 ^ 32 ∧
    Memory.wf exBytes ∧ Memory.within exBytes 8 ∧ (Region.mk 4 [⟨0, 0, 5⟩] exCycles []).check = false :=
  ⟨⟨mirror, by rfl⟩, by decide⟩

theorem witness_EveryParameterValueHasARegion : RegionWf mirror.region.idx mirror.region.cap :=
  (Region.check_sound (by decide)).wf

theorem witness_CoveredRangeIsConsecutive : RegionWf ex.region.idx ex.region.cap ∧ 1 ≤ 8 ∧ ex.region.Covers 0x100#32 8 0 ∧ 7 < 8 :=
  ⟨ex_region_ok.wf, by decide, ex_covers (by decide), by decide⟩

theorem witness_Read8ReturnsTheByte : ex.fr.valid = 0#1 ∧ ex.region.Covers 0x107#32 1 7 ∧ ex.FreeOfWriters 7 1 ∧
    ∀ i, ¬ex.region.Covers 0x108#32 1 i :=
  ⟨rfl, ex_covers (by decide), (free_of_no_views rfl 7 1).2, ex_not_covers (by decide)⟩

theorem witness_Read16ReturnsTheHalfWord : ex.fr.valid = 0#1 ∧ ex.region.Covers 0x106#32 2 6 ∧ ex.FreeOfWriters 6 2 ∧
    (∀ i, ¬ex.region.Covers 0x107#32 2 i) ∧ 0xFFFFFFFF#32 = 0xFFFFFFFF#32 :=
  ⟨rfl, ex_covers (by decide), (free_of_no_views rfl 6 2).2, ex_not_covers (by decide), rfl⟩

theorem witness_Read32ReturnsTheWord : ex.fr.valid = 0#1 ∧ ex.region.Covers 0x104#32 4 4 ∧ ex.FreeOfWriters 4 4 ∧
    (∀ i, ¬ex.region.Covers 0x105#32 4 i) ∧ 0xFFFFFFFD#32 ≤ 0xFFFFFFFD#32 :=
  ⟨rfl, ex_covers (by decide), (free_of_no_views rfl 4 4).2, ex_not_covers (by decide), by decide⟩

theorem witness_Write8StoresTheByte : ex.fr.valid = 0#1 ∧ ex.region.Covers 0x107#32 1 7 ∧ ex.FreeOfViews 7 1 ∧
    ∀ i, ¬ex.region.Covers 0x0FF#32 1 i :=
  ⟨rfl, ex_covers (by decide), (free_of_no_views rfl 7 1).1, ex_not_covers (by decide)⟩

theorem witness_Write16StoresTheHalfWord : ex.fr.valid = 0#1 ∧ ex.region.Covers 0x106#32 2 6 ∧ ex.FreeOfViews 6 2 ∧
    ∀ i, ¬ex.region.Covers 0x0FF#32 2 i :=
  ⟨rfl, ex_covers (by decide), (free_of_no_views rfl 6 2).1, ex_not_covers (by decide)⟩

theorem witness_Write32StoresTheWord : ex.fr.valid = 0#1 ∧ ex.region.Covers 0x104#32 4 4 ∧ ex.FreeOfViews 4 4 ∧
    (∀ i, ¬ex.region.Covers 0x105#32 4 i) ∧ 0xFFFFFFFD#32 ≤ 0xFFFFFFFF#32 :=
  ⟨rfl, ex_covers (by decide), (free_of_no_views rfl 4 4).1, ex_not_covers (by decide), by decide⟩

theorem witness_ReadAfterWriteReturnsTheValue : ex.fr.valid = 0#1 ∧ (0xFFFF#32).toNat < 2 ^ (8 * AccessWidth.w16.bytes) ∧
    ex.region.Covers 0x106#32 AccessWidth.w16.bytes 6 ∧ ex.FreeOfViews 6 AccessWidth.w16.bytes ∧
    ∀ i, ¬ex.region.Covers 0x107#32 AccessWidth.w16.bytes i :=
  ⟨rfl, by decide, ex_covers (by decide), (free_of_no_views rfl 6 2).1, ex_not_covers (by decide)⟩

theorem witness_LittleEndianBytesOfDeadbeef : ex.fr.valid = 0#1 ∧ RegionWf ex.region.idx ex.region.cap ∧
    ex.region.Covers 0x104#32 4 4 ∧ ex.FreeOfViews 4 4 :=
  ⟨rfl, ex_region_ok.wf, ex_covers (by decide), (free_of_no_views rfl 4 4).1⟩

theorem witness_MixedWidthReadSeesTheBytes : ex.fr.valid = 0#1 ∧ RegionWf ex.region.idx ex.region.cap ∧
    ex.region.Covers 0x100#32 4 0 ∧ ex.FreeOfViews 0 4 ∧ 2 ≤ 2 :=
  ⟨rfl, ex_region_ok.wf, ex_covers (by decide), (free_of_no_views rfl 0 4).1, by decide⟩

theorem witness_MirroredAddressesNameOneByte : mirror.fr.valid = 0#1 ∧ mirror.region.Covers 0xD#32 AccessWidth.w16.bytes 1 ∧
    mirror.region.Covers 0x4#32 AccessWidth.w32.bytes 0 ∧ mirror.FreeOfViews 1 AccessWidth.w16.bytes :=
  ⟨rfl, Region.covers_locate.mpr (by decide), Region.covers_locate.mpr (by decide), (free_of_no_views rfl 1 2).1⟩

theorem witness_RangesDoNotWrap : top.fr.valid = 0#1 ∧ 2 ^ 32 < (0xFFFFFFFF#32).toNat + AccessWidth.w16.bytes ∧
    2 ^ 32 < (0xFFFFFFFD#32).toNat + AccessWidth.w32.bytes := by decide

theorem witness_RangeFaultIffNotCovered : ex.fr.valid = 0#1 ∧
    (∃ t, exec (readInstr .w16 0x107#32) ex = .fault (.rangeFault t)) ∧
    ∃ t, exec (writeInstr .w16 0x107#32 0#32) ex = .fault (.rangeFault t) :=
  ⟨rfl, ⟨_, rfl⟩, ⟨_, rfl⟩⟩

theorem witness_CompletedWriteHasStatusZero : ∃ t, exec (writeInstr .w32 0x104#32 0xFFFFFFFF#32) ex = .next t := ⟨_, rfl⟩

theorem witness_NarrowWriteIgnoresUpperBits :
    (0xFFFFFFAB#32).extractLsb' 0 (8 * AccessWidth.w8.bytes) = (0xAB#32).extractLsb' 0 (8 * AccessWidth.w8.bytes) := by decide

theorem witness_RepeatedCommandChangesNothing : (Instr.write32 0x104#32 0#32).isCommand = true ∧ Memory.wf ex.storage ∧
    (∃ t, exec (.write32 0x104#32 0#32) ex = .next t) ∧ (∃ t, exec (.read8 0x104#32) ex = .next t) ∧
    ∀ w a v, Instr.read8 0x104#32 ≠ writeInstr w a v :=
  ⟨rfl, by decide, ⟨_, rfl⟩, ⟨_, rfl⟩, fun w a v => by cases w <;> simp [writeInstr]⟩

theorem witness_CycleQueryAnswersTheCost : ex.fr.valid = 0#1 ∧ decodeWord 0x16#8 = .cycles .sequential .w32 := by decide

theorem witness_CycleQueryIsPure : ex.views = [] ∧ ∃ t, exec (cyclesInstr .sequential .w32 0x000#32) ex = .next t := ⟨rfl, _, rfl⟩

theorem witness_CycleCostDependsOnTimingOnly : ex.fr.valid = 0#1 ∧ mirror.fr.valid = 0#1 ∧
    ∀ b d, ex.region.cycleFn b d = mirror.region.cycleFn b d := ⟨rfl, rfl, fun _ _ => rfl⟩

theorem witness_GetBytesGrantsAnImmutableView : (withViews [⟨.mut, 2, 2⟩]).fr.valid = 0#1 ∧ 1 ≤ 1 ∧
    (withViews [⟨.mut, 2, 2⟩]).region.Covers 0x104#32 1 4 ∧ (withViews [⟨.mut, 2, 2⟩]).FreeOfWriters 4 1 ∧
    (withViews [⟨.mut, 2, 2⟩]).region.Covers 0x103#32 1 3 ∧ ¬(withViews [⟨.mut, 2, 2⟩]).FreeOfWriters 3 1 ∧
    (∀ i, ¬(withViews [⟨.mut, 2, 2⟩]).region.Covers 0x107#32 2 i) ∧ 7 < 8 := by
  refine ⟨rfl, by decide, ex_covers (by decide), free_writers_iff.mpr (by decide), ex_covers (by decide), ?_,
    ex_not_covers (by decide), by decide⟩
  rw [free_writers_iff]
  decide

theorem witness_GetBytesMutGrantsAnExclusiveView : (withViews [⟨.imm, 0, 4⟩]).fr.valid = 0#1 ∧ 1 ≤ 4 ∧
    (withViews [⟨.imm, 0, 4⟩]).region.Covers 0x104#32 4 4 ∧ (withViews [⟨.imm, 0, 4⟩]).FreeOfViews 4 4 ∧ 3 < 4 ∧
    (withViews [⟨.imm, 0, 4⟩]).region.Covers 0x103#32 1 3 ∧ ¬(withViews [⟨.imm, 0, 4⟩]).FreeOfViews 3 1 ∧
    ∀ i, ¬(withViews [⟨.imm, 0, 4⟩]).region.Covers 0x105#32 4 i := by
  refine ⟨rfl, by decide, ex_covers (by decide), free_views_iff.mpr (by decide), by decide, ex_covers (by decide), ?_,
    ex_not_covers (by decide)⟩
  rw [free_views_iff]
  decide

theorem witness_ViewHasExactlyItsLength : RegionWf ex.region.idx ex.region.cap ∧
    (∃ t, exec (.getBytes 0x104#32 4) ex = .next t) ∧ ∃ t, exec (.getBytesMut 0x107#32 1) ex = .next t :=
  ⟨ex_region_ok.wf, ⟨_, rfl⟩, ⟨_, rfl⟩⟩

theorem witness_RegionPortRefusals :
    (ex.load [.rp ⟨0x03#8, 0x100#32, 1, 0#3⟩]).commands = .rp ⟨0x03#8, 0x100#32, 1, 0#3⟩ :: [] ∧ 0x03#8 ≤ 0x03#8 ∧
    (RpRequest.mk 0x01#8 0x100#32 0 0#3).prim = 0x01#8 ∧ (RpRequest.mk 0x01#8 0x100#32 0 0#3).len = 0 ∧
    (RpRequest.mk 0x02#8 0x100#32 0 0b011#3).prim = 0x02#8 ∧ (RpRequest.mk 0x02#8 0x100#32 0 0b011#3).desc = 0b011#3 := by decide

theorem witness_IllegalCommandIsRaisedAtDecode : (issue 0x0C#8 0x100#32 1#32).fr.valid = 0#1 ∧
    (issue 0x0C#8 0x100#32 1#32).commands = .cmd ⟨0x0C#8, 0x100#32, 1#32⟩ :: [] ∧ legal 0x0C#8 = false := by decide

theorem witness_OverlappingViewIsAnAliasViolation : (withViews [⟨.mut, 2, 2⟩]).fr.valid = 0#1 ∧
    (withViews [⟨.mut, 2, 2⟩]).region.Covers 0x103#32 AccessWidth.w8.bytes 3 ∧
    ¬(withViews [⟨.mut, 2, 2⟩]).FreeOfWriters 3 AccessWidth.w8.bytes ∧
    ¬(withViews [⟨.mut, 2, 2⟩]).FreeOfViews 3 AccessWidth.w8.bytes := by
  refine ⟨rfl, ex_covers (by decide), ?_, ?_⟩
  · rw [free_writers_iff]; decide
  · rw [free_views_iff]; decide

theorem witness_FaultsHaveTheirPriority : halted.fr.valid = 1#1 ∧ (issue 0x0B#8 0x107#32 0#32).fr.valid = 0#1 ∧
    legal 0x0B#8 = false ∧ decodeWord 0x09#8 = .write .w16 ∧ (∀ i, ¬ex.region.Covers 0x107#32 AccessWidth.w16.bytes i) ∧
    ex.region.Covers 0x106#32 AccessWidth.w16.bytes 6 ∧ ¬(withViews [⟨.imm, 7, 1⟩]).FreeOfViews 6 AccessWidth.w16.bytes ∧
    (withViews [⟨.imm, 5, 1⟩]).FreeOfViews 6 AccessWidth.w16.bytes ∧ decodeWord 0x01#8 = .read .w16 ∧
    ¬(withViews [⟨.mut, 7, 1⟩]).FreeOfWriters 6 AccessWidth.w16.bytes := by
  refine ⟨rfl, rfl, by decide, by decide, ex_not_covers (by decide), ex_covers (by decide), ?_, free_views_iff.mpr (by decide),
    by decide, ?_⟩
  · rw [free_views_iff]
    decide
  · rw [free_writers_iff]
    decide

theorem witness_FaultsArePrecise : ∃ f, step (issue 0x0A#8 0x106#32 0x01020304#32) = .fault f := ⟨_, rfl⟩

theorem witness_StoppedControllerHasNoStep : halted.fr.valid = 1#1 ∧ (∀ q rest, halted.commands ≠ .rp q :: rest) ∧
    (∀ a d, Instr.getBytesMut 0x100#32 1 ≠ .getCycles a d) ∧ haltedDirect.fr.valid = 1#1 ∧ (∃ t, step haltedDirect = .next t) ∧
    ∃ f, step halted = .fault f :=
  ⟨rfl, nofun, nofun, rfl, ⟨_, rfl⟩, ⟨_, rfl⟩⟩

theorem issue_inv (c : BitVec 8) (a : Address) (d : Word) : (issue c a d).Inv :=
  ⟨⟨ex_region_ok, ex_region_ok.init_wf, ex_region_ok.init_within, List.Pairwise.nil, by simp [issue, ex], .inl ⟨rfl, rfl⟩,
    by simp [issue, ex, Response.empty], by simp [issue, ex]⟩, rfl⟩

theorem witness_FaultRecordsTheCommand : (issue 0x02#8 0x105#32 0#32).Inv ∧ (∃ f, step (issue 0x02#8 0x105#32 0#32) = .fault f) ∧
    (issue 0x02#8 0x105#32 0#32).commands = .cmd ⟨0x02#8, 0x105#32, 0#32⟩ :: [] := ⟨issue_inv _ _ _, ⟨_, rfl⟩, rfl⟩

theorem witness_CompletedStepKeepsTheFaultRecord : ∃ t, step (issue 0x0A#8 0x104#32 0x01020304#32) = .next t := ⟨_, rfl⟩

theorem witness_UnproducedResponseFieldIsAFault : (∃ t, exec (readInstr .w8 0x107#32) ex = .next t) ∧
    (∃ t, exec (writeInstr .w8 0x107#32 0#32) ex = .next t) ∧ ∃ t, exec (cyclesInstr .sequential .w8 0x000#32) ex = .next t :=
  ⟨⟨_, rfl⟩, ⟨_, rfl⟩, ⟨_, rfl⟩⟩

theorem witness_StepRunsTheDecodedInstruction :
    (issue 0x16#8 0x104#32 0#32).commands = .cmd ⟨0x16#8, 0x104#32, 0#32⟩ :: [] ∧
    decode (.cmd ⟨0x16#8, 0x104#32, 0#32⟩) = .instr (.cyclesS32 0x104#32) := by decide

theorem witness_ControllerWithoutRequestIsIdle : ex.fr.valid = 0#1 ∧ ex.commands = [] := ⟨rfl, rfl⟩

theorem witness_TableWordIsTheNextRequest : mirror.fr.valid = 0#1 ∧ decodeTableWord 8 0x0A = some (.write32 0#32 0#32) ∧
    ∃ t, exec (.write32 0#32 0#32) (mirror.withFetchWord 8 0x0A) = .next t :=
  ⟨rfl, by decide, _, rfl⟩

theorem witness_StepKeepsTheInvariant : (issue 0x0A#8 0x104#32 0#32).Inv ∧ ∃ t, step (issue 0x0A#8 0x104#32 0#32) = .next t :=
  ⟨issue_inv _ _ _, _, rfl⟩

theorem witness_ConfigurationNeverChanges : (∃ t, step (issue 0x0A#8 0x104#32 0#32) = .next t) ∧
    (∃ f, step (issue 0x0A#8 0x105#32 0#32) = .fault f) ∧ ∃ t, exec (.getBytesMut 0x104#32 4) ex = .next t :=
  ⟨⟨_, rfl⟩, ⟨_, rfl⟩, ⟨_, rfl⟩⟩

theorem issue_run (c : BitVec 8) (a : Address) (d : Word) : (issue c a d).ControllerRun := ⟨by simp [issue, Issue.isCommand], rfl⟩

theorem witness_ControllerRunHoldsNoView : (issue 0x0A#8 0x104#32 0#32).ControllerRun ∧
    ∃ t, step (issue 0x0A#8 0x104#32 0#32) = .next t := ⟨issue_run _ _ _, _, rfl⟩

theorem witness_ViewsStayExclusive :
    (∃ t, step ((withViews [⟨.mut, 2, 2⟩]).load [.rp ⟨0x00#8, 0x104#32, 1, 0#3⟩]) = .next t) ∧
    ([View.mk .mut 2 2].Pairwise fun u v => u.kind = .mut ∨ v.kind = .mut →
      ∀ j, ¬((u.start ≤ j ∧ j < u.start + u.len) ∧ (v.start ≤ j ∧ j < v.start + v.len))) :=
  ⟨⟨_, rfl⟩, List.pairwise_singleton _ _⟩

theorem witness_PositionMovesByOneRequest : ∃ t, step (issue 0x00#8 0x107#32 0#32) = .next t := ⟨_, rfl⟩

/-- The region of L2 written down as two windows. -/
def exSplit : State := { ex with region := ⟨8, [⟨0x100, 0, 4⟩, ⟨0x104, 4, 4⟩], exCycles, exBytes⟩ }

theorem witness_EqualRegionsAreIndistinguishable : (issue 0x02#8 0x102#32 0#32).Alike (exSplit.load [.cmd ⟨0x02#8, 0x102#32, 0#32⟩]) ∧
    (issue 0x02#8 0x102#32 0#32).region ≠ exSplit.region ∧ (∃ t, step (issue 0x02#8 0x102#32 0#32) = .next t) ∧
    (∃ f, step (issue 0x02#8 0x105#32 0#32) = .fault f) ∧
    (∀ x ∈ (issue 0x02#8 0x105#32 0#32).commands, x.isCommand = true) ∧
    ∃ r, step (ex.load [.rp ⟨0x00#8, 0x100#32, 0, 0#3⟩]) = .refused r := by
  refine ⟨⟨rfl, fun a => ?_, fun _ _ => rfl, fun _ => rfl, rfl, rfl, rfl, rfl, rfl, rfl, rfl⟩, by decide, ⟨_, rfl⟩, ⟨_, rfl⟩,
    (issue_run _ _ _).commands_only, ⟨_, rfl⟩⟩
  show windowIndex [⟨0x100, 0, 8⟩] a.toNat = windowIndex [⟨0x100, 0, 4⟩, ⟨0x104, 4, 4⟩] a.toNat
  generalize a.toNat = n
  by_cases h1 : 0x100 ≤ n ∧ n < 0x100 + 4
  · have h : 0x100 ≤ n ∧ n < 0x100 + 8 := by omega
    simp only [windowIndex, if_pos h, if_pos h1]
  · by_cases h2 : 0x104 ≤ n ∧ n < 0x104 + 4
    · have h : 0x100 ≤ n ∧ n < 0x100 + 8 := by omega
      have e : 0 + (n - 0x100) = 4 + (n - 0x104) := by omega
      simp only [windowIndex, if_pos h, if_neg h1, if_pos h2, e]
    · have h : ¬(0x100 ≤ n ∧ n < 0x100 + 8) := by omega
      simp only [windowIndex, if_neg h, if_neg h1, if_neg h2]

theorem witness_CompletedStepLeavesItsBytes : (issue 0x09#8 0x106#32 0xA5A5#32).commands = .cmd ⟨0x09#8, 0x106#32, 0xA5A5#32⟩ :: [] ∧
    ∃ t, step (issue 0x09#8 0x106#32 0xA5A5#32) = .next t := ⟨rfl, _, rfl⟩

theorem witness_ReadsReturnTheLastWrite : (issue 0x0A#8 0x104#32 0#32).ControllerRun ∧ (issue 0x0A#8 0x104#32 0#32).fr.valid = 0#1 ∧
    (issue 0x0A#8 0x104#32 0#32).storage = (issue 0x0A#8 0x104#32 0#32).region.initMem ∧
    1 ≤ (issue 0x0A#8 0x104#32 0#32).commands.length ∧
    (∃ t, Host.Core.run Sys2Proof.core 1 (issue 0x0A#8 0x104#32 0#32) = .next t) ∧ ex.region.Covers 0x107#32 1 7 :=
  ⟨issue_run _ _ _, rfl, rfl, by decide, ⟨_, rfl⟩, ex_covers (by decide)⟩

theorem witness_RunAnswersEveryCommand : (issue 0x16#8 0x104#32 0#32).ControllerRun ∧ (issue 0x16#8 0x104#32 0#32).fr.valid = 0#1 ∧
    1 ≤ (issue 0x16#8 0x104#32 0#32).commands.length ∧
    (∃ t, Host.Core.run Sys2Proof.core 1 (issue 0x16#8 0x104#32 0#32) = .next t) ∧ 1 = (issue 0x16#8 0x104#32 0#32).commands.length :=
  ⟨issue_run _ _ _, rfl, by decide, ⟨_, rfl⟩, rfl⟩

end Sys2Proof.Tests
end

/-! SUPPORT. Every value of the OPEN parameters (R7) as plain data: one window of length 1 for each address of the domain of
`IDX`, one cycle window of length 1 for each address, and `INIT_MEM` written byte by byte. -/

namespace Sys2Proof

/-! ### The addresses (R8) -/

/-- Every word of a width once, in rising order. Irreducible, so that no proof computes the 2^32 addresses. -/
@[irreducible] def everyWord (width : Nat) : List (BitVec width) := (List.finRange (2 ^ width)).map BitVec.ofFin

theorem mem_everyWord {width : Nat} (a : BitVec width) : a ∈ everyWord width := by
  rw [everyWord]
  exact List.mem_map.mpr ⟨a.toFin, List.mem_finRange _, rfl⟩

theorem everyWord_rising (width : Nat) : (everyWord width).Pairwise fun a b => a.toNat < b.toNat := by
  rw [everyWord]
  exact List.pairwise_map.mpr (List.pairwise_lt_finRange _)

/-- Every address once (R8). -/
abbrev everyAddress : List Address := everyWord addrWidth

/-- A window of length 1 holds one address. -/
theorem unit_window_holds_iff (a b : Address) : (b.toNat ≤ a.toNat ∧ a.toNat < b.toNat + 1) ↔ a = b := by
  rw [← BitVec.toNat_inj]
  omega

/-! ### The index function (R23) -/

/-- The window of length 1 for an address, if the index function holds it. -/
def pointWindow (idx : Address → Option Nat) (a : Address) : Option Window := (idx a).map fun i => ⟨a.toNat, i, 1⟩

theorem pointWindow_eq_some {idx : Address → Option Nat} {a : Address} {w : Window} :
    pointWindow idx a = some w ↔ ∃ i, idx a = some i ∧ ⟨a.toNat, i, 1⟩ = w := Option.map_eq_some_iff

/-- The windows of length 1 for a list of addresses give the index function on the addresses of that list. -/
theorem windowIndex_pointWindows (idx : Address → Option Nat) (bs : List Address) (a : Address) :
    windowIndex (bs.filterMap (pointWindow idx)) a.toNat = if a ∈ bs then idx a else none := by
  induction bs with
  | nil => rfl
  | cons b bs ih =>
    cases hb : idx b with
    | none =>
      have skip : pointWindow idx b = none := by rw [pointWindow, hb]; rfl
      rw [List.filterMap_cons_none skip, ih]
      by_cases h : a = b
      · simp [h, hb]
      · simp [h]
    | some i =>
      rw [List.filterMap_cons_some (pointWindow_eq_some.mpr ⟨i, hb, rfl⟩), windowIndex]
      by_cases h : a = b
      · simp [h, hb]
      · rw [if_neg ((unit_window_holds_iff a b).not.mpr h), ih]
        simp [h]

theorem pointWindows_disjoint (idx : Address → Option Nat) :
    (everyAddress.filterMap (pointWindow idx)).Pairwise fun v w => v.base + v.len ≤ w.base ∨ w.base + w.len ≤ v.base := by
  refine List.pairwise_filterMap.mpr ((everyWord_rising addrWidth).imp fun {a b} hab v hv w hw => ?_)
  obtain ⟨i, -, rfl⟩ := pointWindow_eq_some.mp hv
  obtain ⟨j, -, rfl⟩ := pointWindow_eq_some.mp hw
  exact .inl hab

/-! ### The timing function (R91) -/

/-- The six costs of a timing function at one address. -/
def rowOf (f : Descriptor → Nat) : CycleRow where
  n8 := f (combine .nonSequential .w8)
  n16 := f (combine .nonSequential .w16)
  n32 := f (combine .nonSequential .w32)
  s8 := f (combine .sequential .w8)
  s16 := f (combine .sequential .w16)
  s32 := f (combine .sequential .w32)

@[simp] theorem rowOf_cost (f : Descriptor → Nat) (d : Descriptor) : (rowOf f).cost d = f d := by
  obtain ⟨t, w⟩ := d
  cases t <;> cases w <;> rfl

/-- The cycle window of length 1 for an address. -/
def pointCycles (cyc : Address → Descriptor → Nat) (a : Address) : CycleWindow := ⟨a.toNat, 1, rowOf (cyc a)⟩

theorem cycleRow_pointCycles (cyc : Address → Descriptor → Nat) (other : CycleRow) (bs : List Address) (a : Address) :
    cycleRow (bs.map (pointCycles cyc)) other a.toNat = if a ∈ bs then rowOf (cyc a) else other := by
  induction bs with
  | nil => rfl
  | cons b bs ih =>
    simp only [List.map_cons, cycleRow, pointCycles, unit_window_holds_iff]
    by_cases h : a = b
    · simp [h]
    · rw [if_neg h, ih]
      simp [h]

/-! ### The initial contents (R33) -/

/-- The first `cap` bytes of `init`, in canonical form. -/
def contentsOf (cap : Nat) (init : Nat → Byte) : Machine.Memory :=
  Machine.Memory.writeBytes [] 0 ((List.range cap).map init)

theorem contentsOf_wf (cap : Nat) (init : Nat → Byte) : Machine.Memory.wf (contentsOf cap init) :=
  Machine.Memory.writeBytes_wf _ ⟨List.Pairwise.nil, List.forall_mem_nil _⟩ 0

theorem contentsOf_within (cap : Nat) (init : Nat → Byte) : Machine.Memory.within (contentsOf cap init) cap :=
  Machine.Memory.writeBytes_within _ (List.forall_mem_nil _) 0 (by simp)

theorem read_contentsOf {cap k : Nat} (init : Nat → Byte) (h : k < cap) :
    Machine.Memory.read (contentsOf cap init) k = init k := by
  simp [contentsOf, Machine.Memory.read_writeBytes, h]

/-! ### The region -/

/-- The region of four parameter values. -/
def Region.ofParameters (cap : Nat) (idx : Address → Option Nat) (cyc : Address → Descriptor → Nat) (init : Nat → Byte) :
    Region where
  cap := cap
  windows := everyAddress.filterMap (pointWindow idx)
  cycles := ⟨everyAddress.map (pointCycles cyc), default⟩
  initMem := contentsOf cap init

/-- The converse of `Region.check_parts`. -/
theorem Region.check_of_parts {r : Region}
    (hw : ∀ w ∈ r.windows, w.base + w.len ≤ 2 ^ addrWidth ∧ w.off + w.len ≤ r.cap ∧
      (w.off + w.len = r.cap ∨ w.base + w.len = 2 ^ addrWidth ∨
        windowIndex r.windows (w.base + w.len) = some (w.off + w.len)))
    (hd : r.windows.Pairwise fun v w => v.base + v.len ≤ w.base ∨ w.base + w.len ≤ v.base)
    (hm : Machine.Memory.wf r.initMem) (hi : Machine.Memory.within r.initMem r.cap) : r.check = true := by
  simp only [Region.check, Region.windowOk, Bool.and_eq_true, Bool.or_eq_true, List.all_eq_true, decide_eq_true_eq]
  refine ⟨⟨⟨fun w hmem => ?_, hd⟩, hm⟩, hi⟩
  obtain ⟨h1, h2, h3⟩ := hw w hmem
  exact ⟨⟨h1, h2⟩, or_assoc.mpr h3⟩

section
variable (cap : Nat) (idx : Address → Option Nat) (cyc : Address → Descriptor → Nat) (init : Nat → Byte)

theorem ofParameters_idx (a : Address) : (Region.ofParameters cap idx cyc init).idx a = idx a :=
  (windowIndex_pointWindows idx everyAddress a).trans (if_pos (mem_everyWord a))

theorem ofParameters_cycleFn (a : Address) (d : Descriptor) :
    (Region.ofParameters cap idx cyc init).cycleFn a d = cyc a d := by
  have hrow : cycleRow (everyAddress.map (pointCycles cyc)) default a.toNat = rowOf (cyc a) :=
    (cycleRow_pointCycles cyc default everyAddress a).trans (if_pos (mem_everyWord a))
  calc (Region.ofParameters cap idx cyc init).cycleFn a d = (rowOf (cyc a)).cost d := congrArg (·.cost d) hrow
    _ = cyc a d := rowOf_cost (cyc a) d

/-- The windows pass the check: where the window of an address ends, `REGION_WF` gives the index of the next address. -/
theorem ofParameters_check (h : RegionWf idx cap) : (Region.ofParameters cap idx cyc init).check = true := by
  obtain ⟨hbelow, hnext⟩ := h
  refine Region.check_of_parts (fun w hw => ?_) (pointWindows_disjoint idx) (contentsOf_wf cap init)
    (contentsOf_within cap init)
  obtain ⟨a, -, ha⟩ := List.mem_filterMap.mp hw
  obtain ⟨i, hi, rfl⟩ := pointWindow_eq_some.mp ha
  have hcap : i < cap := hbelow a i hi
  refine ⟨a.isLt, hcap, ?_⟩
  by_cases hlast : i + 1 = cap
  · exact .inl hlast
  by_cases htop : a.toNat + 1 = 2 ^ addrWidth
  · exact .inr (.inl htop)
  have hlt : a.toNat + 1 < 2 ^ addrWidth := lt_of_le_of_ne a.isLt htop
  have hsucc : (a + 1).toNat = a.toNat + 1 := BitVec.toNat_add_of_lt hlt
  have hidx : (Region.ofParameters cap idx cyc init).idx (a + 1) = some (i + 1) :=
    (ofParameters_idx cap idx cyc init (a + 1)).trans (hnext a i hlt hi (lt_of_le_of_ne hcap hlast))
  rw [Region.idx, hsucc] at hidx
  exact .inr (.inr hidx)

end

/-- Settles O10: the region is `Region.ofParameters`. -/
theorem everyParameterValueHasARegion : Obligations.EveryParameterValueHasARegion := by
  unfold Obligations.EveryParameterValueHasARegion
  intro cap idx cyc init hwf
  exact ⟨Region.ofParameters cap idx cyc init, ofParameters_check cap idx cyc init hwf, rfl,
    ofParameters_idx cap idx cyc init, ofParameters_cycleFn cap idx cyc init, fun _ hk => read_contentsOf init hk⟩

end Sys2Proof

/-! SUPPORT. What the master reads from the response port (R9, R26): by the field, then by the response that stands there. -/

namespace Sys2Proof.Machine

theorem readField_produced {α : Type} {f : Response → Option α} {s : State} {v : α} (h : f s.rsp = some v) :
    readField f s = .next v := by simp only [readField, h]

theorem readField_unproduced {α : Type} {f : Response → Option α} {s : State} (h : f s.rsp = none) :
    readField f s = .fault (.noResponseField s) := by simp only [readField, h]

theorem reads_of_ofRdata {t : State} {v : Word} (h : t.rsp = Response.ofRdata v) :
    t.readRdata = .next v ∧ t.readCyc = .fault (.noResponseField t) ∧ t.readWerr = .fault (.noResponseField t) :=
  ⟨readField_produced (congrArg Response.rdata h), readField_unproduced (congrArg Response.cyc h),
    readField_unproduced (congrArg Response.werr h)⟩

theorem reads_of_ofWerr {t : State} {e : BitVec 1} (h : t.rsp = Response.ofWerr e) :
    t.readWerr = .next e ∧ t.readRdata = .fault (.noResponseField t) ∧ t.readCyc = .fault (.noResponseField t) :=
  ⟨readField_produced (congrArg Response.werr h), readField_unproduced (congrArg Response.rdata h),
    readField_unproduced (congrArg Response.cyc h)⟩

theorem reads_of_ofCyc {t : State} {n : Nat} (h : t.rsp = Response.ofCyc n) :
    t.readCyc = .next n ∧ t.readRdata = .fault (.noResponseField t) ∧ t.readWerr = .fault (.noResponseField t) :=
  ⟨readField_produced (congrArg Response.cyc h), readField_unproduced (congrArg Response.rdata h),
    readField_unproduced (congrArg Response.werr h)⟩

theorem reads_of_empty {t : State} (h : t.rsp = Response.empty) :
    t.readRdata = .fault (.noResponseField t) ∧ t.readCyc = .fault (.noResponseField t) ∧
      t.readWerr = .fault (.noResponseField t) :=
  ⟨readField_unproduced (congrArg Response.rdata h), readField_unproduced (congrArg Response.cyc h),
    readField_unproduced (congrArg Response.werr h)⟩

/-! ### The response each family of commands leaves (R26) -/

theorem exec_readInstr_rsp {w : AccessWidth} {a : Address} {s t : State} (h : exec (readInstr w a) s = .next t) :
    ∃ v, t.rsp = Response.ofRdata v := by
  rw [exec_readInstr] at h
  obtain ⟨-, i, -, -, rfl⟩ := readOp_eq_next h
  exact ⟨_, endCommand_rsp _ _⟩

theorem exec_writeInstr_rsp {w : AccessWidth} {a : Address} {v : Word} {s t : State}
    (h : exec (writeInstr w a v) s = .next t) : t.rsp = Response.ofWerr writeStatus := by
  rw [exec_writeInstr] at h
  obtain ⟨-, i, -, -, rfl⟩ := writeOp_eq_next h
  exact endCommand_rsp _ _

theorem exec_cyclesInstr_rsp {ty : AccessType} {w : AccessWidth} {a : Address} {s t : State}
    (h : exec (cyclesInstr ty w a) s = .next t) : t.rsp = Response.ofCyc (s.region.cycleFn a (combine ty w)) := by
  rw [exec_cyclesInstr] at h
  obtain ⟨-, rfl⟩ := cyclesOp_eq_next h
  exact endCommand_rsp _ _

/-- Settles O42: each family leaves its one field on the response port, and reset leaves none. -/
theorem unproducedResponseFieldIsAFault : Obligations.UnproducedResponseFieldIsAFault := by
  unfold Obligations.UnproducedResponseFieldIsAFault
  refine ⟨fun w a s t h => ?_, fun w a v s t h => ?_, fun ty w a s t h => ?_, fun s => ?_⟩
  · obtain ⟨v, hv⟩ := exec_readInstr_rsp h
    obtain ⟨hr, hc, he⟩ := reads_of_ofRdata hv
    exact ⟨⟨v, hr⟩, hc, he⟩
  · exact reads_of_ofWerr (exec_writeInstr_rsp h)
  · exact reads_of_ofCyc (exec_cyclesInstr_rsp h)
  · exact reads_of_empty (applyReset_rsp s)

end Sys2Proof.Machine

/-! SUPPORT. Regions: a covered range byte by byte (R24), what binding does (R152), and the linear region (R23). -/

namespace Sys2Proof

/-- Inside an address space of `2 ^ addrWidth` addresses an offset adds up without a wrap (R50). -/
theorem toNat_add_offset {a : Address} {k : Nat} (h : a.toNat + k < 2 ^ addrWidth) :
    (a + BitVec.ofNat 32 k).toNat = a.toNat + k := by
  have hk : (BitVec.ofNat addrWidth k).toNat = k := by
    rw [BitVec.toNat_ofNat]
    exact Nat.mod_eq_of_lt ((Nat.le_add_left k a.toNat).trans_lt h)
  rw [BitVec.toNat_add, hk, Nat.mod_eq_of_lt h]

theorem add_offset_succ (a : Address) (k : Nat) : a + BitVec.ofNat 32 (k + 1) = a + BitVec.ofNat 32 k + 1 := by
  rw [BitVec.ofNat_add, ← BitVec.add_assoc]
  rfl

/-- R24's consequence of `REGION_WF`: its second clause applied once for each byte of the range. -/
theorem Region.Covers.idx_add {r : Region} {a : Address} {n i : Nat} (h : r.Covers a n i) (hwf : RegionWf r.idx r.cap) :
    ∀ k, k < n → r.idx (a + BitVec.ofNat 32 k) = some (i + k) := by
  obtain ⟨htop, hidx, hcap⟩ := h
  intro k
  induction k with
  | zero => exact fun _ => by simpa using hidx
  | succ k ih =>
    intro hk
    have hin : (a + BitVec.ofNat 32 k).toNat + 1 < 2 ^ addrWidth := by
      rw [toNat_add_offset (by omega)]
      omega
    rw [add_offset_succ]
    exact hwf.2 _ (i + k) hin (ih (by omega)) (by omega)

/-- Settles O11: `covers` by `locate`, and the consequence by `Region.Covers.idx_add`. -/
theorem coveredRangeIsConsecutive : Obligations.CoveredRangeIsConsecutive := by
  unfold Obligations.CoveredRangeIsConsecutive
  refine fun r a n => ⟨?_, fun hwf _ i hc => hc.idx_add hwf⟩
  rw [Region.covers_iff]
  exact exists_congr fun i => Region.covers_locate.symm

/-- The check accepts every linear region of the address space (R23) with canonical contents: its one window ends where
storage ends. -/
theorem Region.linear_check {base cap : Nat} {cyc : CycleTable} {m : Machine.Memory} (hb : base + cap ≤ 2 ^ addrWidth)
    (hm : Machine.Memory.wf m) (hi : Machine.Memory.within m cap) : (Region.linear base cap cyc m).check = true := by
  refine Region.check_of_parts (fun w hw => ?_) (List.pairwise_singleton _ _) hm hi
  obtain rfl : w = ⟨base, 0, cap⟩ := List.mem_singleton.mp hw
  have hend : 0 + cap = cap := Nat.zero_add cap
  exact ⟨hb, hend.le, .inl hend⟩

namespace Machine

theorem boot_of_check {r : Region} (h : r.check = true) : State.boot r = .next (State.resetOf r) := if_pos h

theorem boot_of_check_false {r : Region} (h : r.check = false) : State.boot r = .refused .regionIllFormed :=
  if_neg (by simp [h])

/-- If binding answers a next state, the region passed the check and this is the state (R152). -/
theorem boot_eq_next {r : Region} {t : State} (h : State.boot r = .next t) : r.check = true ∧ t = State.resetOf r := by
  cases hc : r.check with
  | false => rw [boot_of_check_false hc] at h; cases h
  | true => rw [boot_of_check hc] at h; cases h; exact ⟨rfl, rfl⟩

/-- Settles O9: a bound region passed the check, which implies `REGION_WF`, and the check accepts linear regions. -/
theorem bindingNeedsAWellFormedRegion : Obligations.BindingNeedsAWellFormedRegion := by
  unfold Obligations.BindingNeedsAWellFormedRegion
  refine ⟨fun r t h => ?_, fun base cap cyc m hb hm hi => boot_of_check (Region.linear_check hb hm hi),
    fun r h => boot_of_check_false h⟩
  obtain ⟨hc, rfl⟩ := boot_eq_next h
  exact ⟨(Region.check_sound hc).wf, rfl, rfl, rfl, rfl⟩

/-! ### The invariant at reset, and what keeps a state sound -/

theorem Response.empty_atMostOne : Response.empty.AtMostOne ∧ ∀ e, Response.empty.werr = some e → e = 0#1 :=
  ⟨.inl ⟨rfl, rfl⟩, nofun⟩

/-- Reset leaves the invariant for every region that is well-formed (R33, R150). -/
theorem resetOf_inv {r : Region} (h : r.Ok) : (State.resetOf r).Inv where
  sound := {
    region_ok := h
    storage_wf := h.init_wf
    storage_within := h.init_within
    exclusive := List.Pairwise.nil
    in_storage := List.forall_mem_nil _
    rsp_one := Response.empty_atMostOne.1
    werr_zero := Response.empty_atMostOne.2
    responses_one := List.forall_mem_nil _ }
  fr_clear := rfl

/-- Settles O8: the boot region is linear, so the check accepts it as it does every region that is bound. -/
theorem invariantHoldsAtReset : Obligations.InvariantHoldsAtReset := by
  unfold Obligations.InvariantHoldsAtReset
  have hboot : Config.bootRegion.check = true :=
    Region.linear_check (by decide) ⟨List.Pairwise.nil, List.forall_mem_nil _⟩ (List.forall_mem_nil _)
  refine ⟨resetOf_inv (Region.check_sound hboot), fun r t h => ?_⟩
  obtain ⟨hc, rfl⟩ := boot_eq_next h
  exact resetOf_inv (Region.check_sound hc)

/-- What an instruction leaves in storage: the bytes of a write at the index its range starts at (R100), and nothing new
otherwise. -/
theorem exec_next_storage {i : Instr} {s t : State} (h : exec i s = .next t) :
    t.storage = s.storage ∨ ∃ w a v j, i = writeInstr w a v ∧ s.region.locate a w.bytes = some j ∧
      t.storage = Memory.writeBytes s.storage j (leEncode w.bytes (writeValue w v)) := by
  rcases instr_cases i with ⟨w, a, rfl⟩ | ⟨w, a, v, rfl⟩ | ⟨ty, w, a, rfl⟩ | ⟨a, n, rfl⟩ | ⟨a, n, rfl⟩ | ⟨a, d, rfl⟩
  · rw [exec_readInstr] at h
    obtain ⟨-, j, -, -, rfl⟩ := readOp_eq_next h
    exact .inl rfl
  · rw [exec_writeInstr] at h
    obtain ⟨-, j, hj, -, rfl⟩ := writeOp_eq_next h
    exact .inr ⟨w, a, v, j, rfl, hj, rfl⟩
  · rw [exec_cyclesInstr] at h
    obtain ⟨-, rfl⟩ := cyclesOp_eq_next h
    exact .inl rfl
  · obtain ⟨-, j, -, -, -, rfl⟩ := viewPrimitive_eq_next h
    exact .inl rfl
  · obtain ⟨-, j, -, -, -, rfl⟩ := viewPrimitive_eq_next h
    exact .inl rfl
  · obtain rfl := cyclesPrimitive_eq_next h
    exact .inl rfl

/-- What an instruction leaves on the response port: the one field of a command's family (R26), and what stood there after a
primitive issued directly. -/
theorem exec_next_rsp {i : Instr} {s t : State} (h : exec i s = .next t) :
    t.rsp = s.rsp ∨ (∃ v, t.rsp = Response.ofRdata v) ∨ t.rsp = Response.ofWerr writeStatus ∨
      ∃ n, t.rsp = Response.ofCyc n := by
  rcases instr_cases i with ⟨w, a, rfl⟩ | ⟨w, a, v, rfl⟩ | ⟨ty, w, a, rfl⟩ | ⟨a, n, rfl⟩ | ⟨a, n, rfl⟩ | ⟨a, d, rfl⟩
  · exact .inr (.inl (exec_readInstr_rsp h))
  · exact .inr (.inr (.inl (exec_writeInstr_rsp h)))
  · exact .inr (.inr (.inr ⟨_, exec_cyclesInstr_rsp h⟩))
  · obtain ⟨-, j, -, -, -, rfl⟩ := viewPrimitive_eq_next h
    exact .inl rfl
  · obtain ⟨-, j, -, -, -, rfl⟩ := viewPrimitive_eq_next h
    exact .inl rfl
  · obtain rfl := cyclesPrimitive_eq_next h
    exact .inl rfl

theorem exec_keeps_storage {i : Instr} {s t : State} (h : exec i s = .next t) (hs : s.Sound) :
    Memory.wf t.storage ∧ Memory.within t.storage s.region.cap := by
  rcases exec_next_storage h with he | ⟨w, a, v, j, -, hj, he⟩
  · rw [he]
    exact ⟨hs.storage_wf, hs.storage_within⟩
  · have hcap : j + (leEncode w.bytes (writeValue w v)).length ≤ s.region.cap := by
      rw [leEncode_length]
      exact (Region.locate_eq_some.mp hj).2.2
    rw [he]
    exact ⟨Memory.writeBytes_wf _ hs.storage_wf j, Memory.writeBytes_within _ hs.storage_within j hcap⟩

theorem exec_keeps_views {i : Instr} {s t : State} (h : exec i s = .next t) (hs : s.Sound) :
    Exclusive t.views ∧ ∀ v ∈ t.views, v.inStorage s.region.cap := by
  rcases exec_next_views h with he | ⟨-, he | ⟨v, hv, hlen, hcap, he⟩⟩
  · rw [he]
    exact ⟨List.Pairwise.nil, List.forall_mem_nil _⟩
  · rw [he]
    exact ⟨hs.exclusive, hs.in_storage⟩
  · rw [he]
    refine ⟨exclusive_append hs.exclusive hv, fun u hu => ?_⟩
    rcases List.mem_append.mp hu with hu | hu
    · exact hs.in_storage u hu
    · obtain rfl := List.mem_singleton.mp hu
      exact ⟨hlen, hcap⟩

theorem exec_keeps_rsp {i : Instr} {s t : State} (h : exec i s = .next t) (hs : s.Sound) :
    t.rsp.AtMostOne ∧ ∀ e, t.rsp.werr = some e → e = 0#1 := by
  rcases exec_next_rsp h with he | ⟨v, he⟩ | he | ⟨n, he⟩
  · rw [he]
    exact ⟨hs.rsp_one, hs.werr_zero⟩
  · rw [he]
    exact ⟨.inr (.inr ⟨rfl, rfl⟩), nofun⟩
  · rw [he]
    exact ⟨.inl ⟨rfl, rfl⟩, fun e hw => (Option.some.inj hw).symm⟩
  · rw [he]
    exact ⟨.inr (.inl ⟨rfl, rfl⟩), nofun⟩

theorem exec_keeps_sound {i : Instr} {s t : State} (h : exec i s = .next t) (hs : s.Sound) : t.Sound := by
  obtain ⟨hregion, -, -, -, hresponses, -⟩ := exec_next_keeps h
  obtain ⟨hwf, hwithin⟩ := exec_keeps_storage h hs
  obtain ⟨hex, hin⟩ := exec_keeps_views h hs
  obtain ⟨hone, hzero⟩ := exec_keeps_rsp h hs
  exact {
    region_ok := hregion ▸ hs.region_ok
    storage_wf := hwf
    storage_within := hregion ▸ hwithin
    exclusive := hex
    in_storage := hregion ▸ hin
    rsp_one := hone
    werr_zero := hzero
    responses_one := hresponses ▸ hs.responses_one }

/-- A completed request adds at most the response on the port to the sequence (R158). -/
theorem mem_retire_responses {x : Issue} {s : State} {p : Response} (h : p ∈ (retire x s).responses) :
    p ∈ s.responses ∨ p = s.rsp := by
  cases x with
  | cmd r => simpa using h
  | rp q => exact .inl h

theorem retire_sound {s : State} (hs : s.Sound) (x : Issue) : (retire x s).Sound where
  region_ok := hs.region_ok
  storage_wf := hs.storage_wf
  storage_within := hs.storage_within
  exclusive := hs.exclusive
  in_storage := hs.in_storage
  rsp_one := hs.rsp_one
  werr_zero := hs.werr_zero
  responses_one := fun p hp => by
    rcases mem_retire_responses hp with hp | rfl
    · exact hs.responses_one p hp
    · exact ⟨hs.rsp_one, hs.werr_zero⟩

/-- A fatal fault leaves a sound state: it writes the record and empties the response port (R138). -/
theorem raise_sound {s : State} (hs : s.Sound) (c : Cause) (cmd : Option (BitVec 8)) (a : Address) (n : Nat) (p : BitVec 2) :
    (raise c cmd a n p s).Sound where
  region_ok := hs.region_ok
  storage_wf := hs.storage_wf
  storage_within := hs.storage_within
  exclusive := hs.exclusive
  in_storage := hs.in_storage
  rsp_one := Response.empty_atMostOne.1
  werr_zero := Response.empty_atMostOne.2
  responses_one := hs.responses_one

/-! ### What a step keeps -/

/-- What a completing step keeps, whether it is idle or not: the configuration (R21) and the fault record (R29). -/
theorem step_next_keeps {s t : State} (h : step s = .next t) : t.region = s.region ∧ t.fr = s.fr := by
  rcases step_eq_next h with ⟨-, -, rfl⟩ | ⟨x, rest, i, u, -, -, hu, rfl⟩
  · exact ⟨rfl, rfl⟩
  · obtain ⟨hregion, hfr, -⟩ := exec_next_keeps hu
    exact ⟨hregion, hfr⟩

theorem step_keeps_sound {s t : State} (h : step s = .next t) (hs : s.Sound) : t.Sound := by
  rcases step_eq_next h with ⟨-, -, rfl⟩ | ⟨x, rest, i, u, -, -, hu, rfl⟩
  · exact hs
  · exact retire_sound (exec_keeps_sound hu hs) x

/-- Settles O46: a completing step keeps soundness and leaves the fault record as it was. -/
theorem stepKeepsTheInvariant : Obligations.StepKeepsTheInvariant := by
  unfold Obligations.StepKeepsTheInvariant
  exact fun s t hinv h => ⟨step_keeps_sound h hinv.sound, (step_next_keeps h).2.trans hinv.fr_clear⟩

/-- Settles O41: no completing step writes the fault record. -/
theorem completedStepKeepsTheFaultRecord : Obligations.CompletedStepKeepsTheFaultRecord := by
  unfold Obligations.CompletedStepKeepsTheFaultRecord
  exact fun s t h => (step_next_keeps h).2

/-- Settles O47: neither an instruction, nor the master's side, nor the entry into a fault writes the configuration. -/
theorem configurationNeverChanges : Obligations.ConfigurationNeverChanges := by
  unfold Obligations.ConfigurationNeverChanges
  refine ⟨fun s t h => (step_next_keeps h).1, fun s f h => ?_, fun i s t h => (exec_next_keeps h).1⟩
  rcases step_eq_fault h with ⟨-, rfl⟩ | ⟨-, c, cmd, a, n, p, rfl⟩
  · rfl
  · rw [cause_fault_state, raise_region]

/-- A step that completes a request takes it from the list and moves the position on by one (R27). -/
theorem step_next_moves {s t : State} {x : Issue} {rest : List Issue} (hc : s.commands = x :: rest)
    (h : step s = .next t) : t.commands = rest ∧ t.pos = s.pos + 1 := by
  rcases step_eq_next h with ⟨-, hn, -⟩ | ⟨y, ys, i, u, -, -, hu, rfl⟩
  · rw [hc] at hn; cases hn
  · obtain ⟨-, -, hcommands, hpos, -, -⟩ := exec_next_keeps hu
    exact ⟨by rw [retire_commands, hcommands, hc, List.tail_cons], by rw [retire_pos, hpos]⟩

/-- Settles O50: the step is idle when no request is left, and takes the head when one is. -/
theorem positionMovesByOneRequest : Obligations.PositionMovesByOneRequest := by
  unfold Obligations.PositionMovesByOneRequest
  intro s t h
  rcases step_eq_next h with ⟨-, hn, rfl⟩ | ⟨x, rest, -, -, hc, -⟩
  · exact .inl ⟨hn, rfl⟩
  · exact .inr ⟨x, rest, hc, step_next_moves hc h⟩

/-! ### The run of the controller (R90, R158) -/

/-- With no live view no view is refused for aliasing, so nothing built on one raises ALIAS_VIOLATION (R90). -/
theorem acquire_ne_alias {kind : ViewKind} {cmd : Option (BitVec 8)} {a : Address} {n : Nat} {s t : State}
    (hv : s.views = []) : acquire kind cmd a n s ≠ .fault (.aliasViolation t) := by
  rcases acquire_cases kind cmd a n s with ⟨-, he⟩ | ⟨-, -, he⟩ | ⟨i, -, -, hc, -⟩ | ⟨i, -, -, -, he⟩
  · rw [he]; nofun
  · rw [he]; nofun
  · rw [hv, conflicts_nil] at hc; cases hc
  · rw [he]; nofun

/-- The same of what goes on from a view and does not fault itself, on a running controller or a stopped one. -/
theorem acquired_ne_alias {kind : ViewKind} {cmd : Option (BitVec 8)} {a : Address} {n : Nat} {s t : State}
    {k : View × State → Host.Outcome State Fault Refusal} (hv : s.views = []) (hk : ∀ p f, k p ≠ .fault f) :
    whenRunning s (andThen (acquire kind cmd a n s) k) ≠ .fault (.aliasViolation t) := by
  intro h
  rcases whenRunning_eq_fault h with ⟨-, he⟩ | ⟨-, he⟩
  · cases he
  · rcases andThen_eq_fault he with ha | ⟨p, -, hp⟩
    · exact acquire_ne_alias hv ha
    · exact hk p _ hp

theorem exec_ne_alias {i : Instr} {s t : State} (hv : s.views = []) : exec i s ≠ .fault (.aliasViolation t) := by
  rcases instr_cases i with ⟨w, a, rfl⟩ | ⟨w, a, v, rfl⟩ | ⟨ty, w, a, rfl⟩ | ⟨a, n, rfl⟩ | ⟨a, n, rfl⟩ | ⟨a, d, rfl⟩
  · rw [exec_readInstr]
    exact acquired_ne_alias hv fun _ _ h => by cases h
  · rw [exec_writeInstr]
    exact acquired_ne_alias hv fun _ _ h => by cases h
  · rw [exec_cyclesInstr]
    intro h
    cases (cyclesOp_eq_fault h).2
  · exact acquired_ne_alias hv fun _ _ h => by cases h
  · exact acquired_ne_alias hv fun _ _ h => by cases h
  · exact cyclesPrimitive_ne_fault

theorem step_ne_alias {s t : State} (hv : s.views = []) : step s ≠ .fault (.aliasViolation t) := by
  intro h
  rcases step_cases s with ⟨-, -, he⟩ | ⟨-, -, he⟩ | ⟨x, rest, i, -, -, he⟩ | ⟨-, r, rest, -, -, he⟩ | ⟨q, rest, e, -, he⟩
  · rw [he] at h; cases h
  · rw [he] at h; cases h
  · rw [he] at h
    rcases andThen_eq_fault h with ha | ⟨u, -, hu⟩
    · exact exec_ne_alias hv ha
    · cases hu
  · rw [he] at h; cases h
  · rw [he] at h; cases h

/-- The next request of a controller run is a master command (R94), and only master commands follow it. -/
theorem State.ControllerRun.next_command {s : State} (hs : s.ControllerRun) {x : Issue} {rest : List Issue}
    (hc : s.commands = x :: rest) : (∃ r, x = .cmd r) ∧ ∀ y ∈ rest, y.isCommand = true := by
  obtain ⟨hx, hrest⟩ := List.forall_mem_cons.mp (hc ▸ hs.commands_only)
  cases x with
  | cmd r => exact ⟨⟨r, rfl⟩, hrest⟩
  | rp q => cases hx

/-- A step that completes in a run of the controller leaves such a run (R30, R90). -/
theorem step_keeps_run {s t : State} (hs : s.ControllerRun) (h : step s = .next t) : t.ControllerRun := by
  rcases step_eq_next h with ⟨-, -, rfl⟩ | ⟨x, rest, i, u, hc, hd, hu, rfl⟩
  · exact hs
  · obtain ⟨⟨r, rfl⟩, hrest⟩ := hs.next_command hc
    exact ⟨by rwa [(step_next_moves hc h).1], exec_command_views (t := u) (isCommand_of_request hd) hu⟩

/-- Settles O48: commands drop their views, and with no live view nothing aliases. -/
theorem controllerRunHoldsNoView : Obligations.ControllerRunHoldsNoView := by
  unfold Obligations.ControllerRunHoldsNoView
  exact fun s hs => ⟨fun t h => step_keeps_run hs h, fun t => step_ne_alias hs.no_views⟩

/-- A master command that completes adds its response to the sequence (R158). -/
theorem step_command_responses {s t : State} {r : Request} {rest : List Issue} (hc : s.commands = .cmd r :: rest)
    (h : step s = .next t) : t.responses = s.responses ++ [t.rsp] := by
  rcases step_eq_next h with ⟨-, hn, -⟩ | ⟨x, xs, i, u, hx, -, hu, rfl⟩
  · rw [hc] at hn; cases hn
  · obtain ⟨-, -, -, -, hresponses, -⟩ := exec_next_keeps hu
    obtain rfl : Issue.cmd r = x := (List.cons.inj (hc.symm.trans hx)).1
    rw [retire_responses_command, retire_rsp, hresponses]

/-- A run of `n + 1` steps that completes is a step that completes and a run of `n`, for every machine. -/
theorem run_succ_eq_next {M : Host.Core} {n : Nat} {s t : M.State} (h : M.run (n + 1) s = .next t) :
    ∃ u, M.step s = .next u ∧ M.run n u = .next t := by
  rw [Host.Core.run] at h
  split at h
  · next u hu => exact ⟨u, hu, h⟩
  · cases h
  · cases h

/-- What `n` completed commands of a controller run leave of the master's side and of the fault record, by induction on `n`. -/
theorem run_answers {n : Nat} {s t : State} (hs : s.ControllerRun) (hn : n ≤ s.commands.length)
    (h : Host.Core.run Sys2Proof.core n s = .next t) :
    t.commands = s.commands.drop n ∧ t.pos = s.pos + n ∧ s.responses <+: t.responses ∧
      t.responses.length = s.responses.length + n ∧ t.fr = s.fr := by
  induction n generalizing s with
  | zero =>
    cases h
    exact ⟨rfl, rfl, List.prefix_rfl, rfl, rfl⟩
  | succ n ih =>
    obtain ⟨u, hu, hrun⟩ := run_succ_eq_next h
    cases hc : s.commands with
    | nil => rw [hc] at hn; cases hn
    | cons x rest =>
      obtain ⟨⟨r, rfl⟩, -⟩ := hs.next_command hc
      obtain ⟨hcommands, hpos⟩ := step_next_moves hc hu
      have hresponses := step_command_responses hc hu
      rw [hc, List.length_cons, Nat.succ_le_succ_iff] at hn
      obtain ⟨ic, ip, ir, il, ifr⟩ := ih (step_keeps_run hs hu) (hcommands ▸ hn) hrun
      have hkept : s.responses <+: u.responses := hresponses ▸ List.prefix_append _ _
      refine ⟨by rw [ic, hcommands, List.drop_succ_cons], by omega, hkept.trans ir, ?_,
        ifr.trans (step_next_keeps hu).2⟩
      rw [il, hresponses, List.length_append, List.length_singleton]
      omega

/-- Settles O53: with the list used up, no command is left and the fault record is the clear one the run began with. -/
theorem runAnswersEveryCommand : Obligations.RunAnswersEveryCommand := by
  unfold Obligations.RunAnswersEveryCommand
  intro n s t hs hvalid hn h
  obtain ⟨hc, hp, hr, hl, hfr⟩ := run_answers hs hn h
  refine ⟨hc, hp, hr, hl, hfr, fun he => ⟨?_, hfr ▸ hvalid⟩⟩
  rw [hc, he, List.drop_length]

/-! ### The record of a faulting command (R131, R138) -/

/-- What a command may raise, of its cause, the length and the primitive recorded: a transfer's view out of range or
aliased, or an illegal word. -/
def CommandRaises (c : Cause) (n : Nat) (p : BitVec 2) : Prop :=
  ((c = .rangeFault ∨ c = .aliasViolation) ∧ (∃ w : AccessWidth, n = w.bytes) ∧ (p = 0#2 ∨ p = 1#2)) ∨
    (c = .illegalCommand ∧ n = 0 ∧ p = noPrim)

/-- Everything a fault of a master command can be on a running controller: it records the command's word and address. -/
theorem step_command_eq_fault {s : State} {r : Request} {rest : List Issue} {f : Fault} (hs : s.fr.valid ≠ 1#1)
    (hc : s.commands = .cmd r :: rest) (h : step s = .fault f) :
    ∃ c n p, CommandRaises c n p ∧ f = c.fault (raise c (some r.cmd) r.addr n p s) := by
  rcases step_cases s with ⟨hv, -⟩ | ⟨-, hn, -⟩ | ⟨x, xs, i, hx, hd, he⟩ | ⟨-, q, qs, hq, -, he⟩ | ⟨q, qs, e, hq, -⟩
  · exact absurd hv hs
  · rw [hc] at hn; cases hn
  · obtain rfl : Issue.cmd r = x := (List.cons.inj (hc.symm.trans hx)).1
    rw [he] at h
    rcases andThen_eq_fault h with hf | ⟨u, -, hu⟩
    · rcases instr_of_request hd with ⟨w, rfl, hword⟩ | ⟨w, rfl, hword⟩ | ⟨ty, w, rfl⟩
      · rw [exec_readInstr, hword] at hf
        obtain ⟨-, c, hcause, hf⟩ := (readOp_eq_fault hf).resolve_left fun hv => hs hv.1
        exact ⟨c, _, _, .inl ⟨hcause, ⟨w, rfl⟩, .inl rfl⟩, hf⟩
      · rw [exec_writeInstr, hword] at hf
        obtain ⟨-, c, hcause, hf⟩ := (writeOp_eq_fault hf).resolve_left fun hv => hs hv.1
        exact ⟨c, _, _, .inl ⟨hcause, ⟨w, rfl⟩, .inr rfl⟩, hf⟩
      · rw [exec_cyclesInstr] at hf
        exact absurd (cyclesOp_eq_fault hf).1 hs
    · cases hu
  · obtain rfl : r = q := Issue.cmd.inj (List.cons.inj (hc.symm.trans hq)).1
    rw [he] at h; cases h
    exact ⟨.illegalCommand, 0, noPrim, .inr ⟨rfl, rfl, rfl⟩, rfl⟩
  · rw [hc] at hq; cases hq

/-- The record of what a command may raise is a legal one (R29, R131). -/
theorem raise_ofCommand {c : Cause} {n : Nat} {p : BitVec 2} (h : CommandRaises c n p) (cmd : Option (BitVec 8))
    (a : Address) (s : State) : (raise c cmd a n p s).fr.OfCommand := by
  rcases h with ⟨hc, ⟨w, rfl⟩, hp⟩ | ⟨rfl, rfl, rfl⟩
  · have hcode : c.code = 1#4 ∨ c.code = 3#4 := hc.imp (congrArg Cause.code) (congrArg Cause.code)
    have hne : c.code ≠ 2#4 := by rcases hcode with h | h <;> rw [h] <;> decide
    have hlen : recordLen w.bytes s.draws = 1#3 ∨ recordLen w.bytes s.draws = 2#3 ∨ recordLen w.bytes s.draws = 4#3 := by
      cases w
      · exact .inl rfl
      · exact .inr (.inl rfl)
      · exact .inr (.inr rfl)
    have hlen0 : recordLen w.bytes s.draws ≠ 0#3 := by rcases hlen with h | h | h <;> rw [h] <;> decide
    have hp3 : p ≠ 3#2 := by rcases hp with rfl | rfl <;> decide
    exact {
      valid := rfl
      code := hcode.imp_right .inr
      len := .inr hlen
      prim := hp.imp_right .inl
      illegal_len := iff_of_false hne hlen0
      illegal_prim := iff_of_false hne hp3 }
  · exact {
      valid := rfl
      code := .inr (.inl rfl)
      len := .inl rfl
      prim := .inr (.inr rfl)
      illegal_len := iff_of_true rfl rfl
      illegal_prim := iff_of_true rfl rfl }

/-- Settles O40: a machine with the invariant runs, so its fault is one that is entered, and a command's record is a legal one. -/
theorem faultRecordsTheCommand : Obligations.FaultRecordsTheCommand := by
  unfold Obligations.FaultRecordsTheCommand
  intro s f hinv h
  have hs : s.fr.valid ≠ 1#1 := by
    rw [hinv.fr_clear]
    decide
  obtain ⟨-, c, cmd, a, n, p, hf⟩ := (step_eq_fault h).resolve_left fun hv => hs hv.1
  refine ⟨?_, ?_, fun r rest hc => ?_⟩
  · rw [hf, cause_fault_state]
    exact raise_sound hinv.sound c cmd a n p
  · rw [hf, cause_fault_state, raise_fr]
  · obtain ⟨c, n, p, hr, rfl⟩ := step_command_eq_fault hs hc h
    rw [cause_fault_state]
    exact ⟨raise_ofCommand hr _ _ _, rfl, rfl⟩

end Machine

end Sys2Proof

/-! SUPPORT. The transfers as a pair of rules, what a write leaves and what a read then answers (R40, R53), and storage along a
step and a run (R52). -/

namespace Sys2Proof

/-- Inside the address space only `IDX` and storage decide whether a range is covered (R24, R50). -/
theorem Region.covers_iff_of_le {r : Region} {a : Address} {n : Nat} (h : a.toNat + n ≤ 2 ^ addrWidth) :
    r.covers a n = true ↔ ∃ i, r.idx a = some i ∧ i + n ≤ r.cap := by
  simp only [Region.covers_iff, Region.locate_eq_some, h, true_and]

/-- In a well-formed region a range inside a covered range is covered (R24). -/
theorem Region.Covers.inside {r : Region} {a : Address} {n i k m : Nat} (h : r.Covers a n i) (hwf : RegionWf r.idx r.cap)
    (hkn : k < n) (hkm : k + m ≤ n) : r.Covers (a + BitVec.ofNat 32 k) m (i + k) := by
  obtain ⟨htop, -, hcap⟩ := id h
  refine ⟨?_, h.idx_add hwf k hkn, by omega⟩
  rw [toNat_add_offset (by omega)]
  omega

namespace Machine

/-! ### The bytes of a word (R10) -/

/-- Words of `n` bytes are equal when their bytes are. -/
theorem word_eq_of_bytes {n : Nat} {x y : Word} (hx : x.toNat < 2 ^ (8 * n)) (hy : y.toNat < 2 ^ (8 * n))
    (h : ∀ k, k < n → x.extractLsb' (8 * k) 8 = y.extractLsb' (8 * k) 8) : x = y := by
  refine BitVec.eq_of_getLsbD_eq fun j _ => ?_
  by_cases hj : j < 8 * n
  · have hbyte := congrArg (·.getLsbD (j % 8)) (h (j / 8) (by omega))
    have hbit : j % 8 < 8 := Nat.mod_lt j (by decide)
    simpa [hbit, Nat.div_add_mod] using hbyte
  · have hle : 2 ^ (8 * n) ≤ 2 ^ j := Nat.pow_le_pow_right (by decide) (by omega)
    rw [BitVec.getLsbD, BitVec.getLsbD, Nat.testBit_lt_two_pow (hx.trans_le hle), Nat.testBit_lt_two_pow (hy.trans_le hle)]

/-- Byte `q` of the `n` bytes of a word from byte `k` on is byte `k + q` of the word. -/
theorem slice_byte (v : Word) {k n q : Nat} (hq : q < n) (hn : n ≤ 4) :
    ((v.extractLsb' (8 * k) (8 * n)).setWidth 32).extractLsb' (8 * q) 8 = v.extractLsb' (8 * (k + q)) 8 := by
  refine BitVec.eq_of_getLsbD_eq fun j hj => ?_
  have hin : 8 * q + j < 8 * n := by omega
  have hword : 8 * q + j < 32 := by omega
  simp [hj, hin, hword, Nat.mul_add, Nat.add_assoc]

theorem slice_lt (v : Word) (k n : Nat) : ((v.extractLsb' (8 * k) (8 * n)).setWidth 32).toNat < 2 ^ (8 * n) := by
  rw [BitVec.toNat_setWidth]
  exact (Nat.mod_le _ _).trans_lt (v.extractLsb' (8 * k) (8 * n)).isLt

/-- A word that fits in `n` bytes is the `n` bytes from its byte 0 on. -/
theorem slice_eq_self {v : Word} {n : Nat} (hv : v.toNat < 2 ^ (8 * n)) (hn : n ≤ 4) :
    (v.extractLsb' (8 * 0) (8 * n)).setWidth 32 = v :=
  word_eq_of_bytes (slice_lt v 0 n) hv fun k hk => by rw [slice_byte v hk hn, Nat.zero_add]

/-- Byte `k` of the little-endian value is byte `k` of the list (R10). -/
theorem leDecode_byte {bs : List Byte} {k : Nat} (h : k < bs.length) :
    leDecode bs / 2 ^ (8 * k) % 2 ^ 8 = bs[k].toNat := by
  induction bs generalizing k with
  | nil => cases h
  | cons b bs ih =>
    have hb := b.isLt
    cases k with
    | zero =>
      rw [Nat.mul_zero, pow_zero, Nat.div_one, leDecode, List.getElem_cons_zero]
      omega
    | succ k =>
      have hhead : leDecode (b :: bs) / 2 ^ 8 = leDecode bs := by rw [leDecode]; omega
      rw [Nat.mul_succ, Nat.add_comm, pow_add, ← Nat.div_div_eq_div_mul, hhead]
      exact ih (Nat.lt_of_succ_lt_succ h)

/-- At most four bytes fit in a port word. -/
theorem readValue_toNat {bs : List Byte} (h : bs.length ≤ 4) : (readValue bs).toNat = leDecode bs := by
  have hle : 2 ^ (8 * bs.length) ≤ 2 ^ 32 := Nat.pow_le_pow_right (by decide) (by omega)
  exact Nat.mod_eq_of_lt ((leDecode_lt bs).trans_le hle)

theorem AccessWidth.bytes_le_four (w : AccessWidth) : w.bytes ≤ 4 := by cases w <;> decide

@[simp] theorem viewBytes_length (m : Memory) (v : View) : (viewBytes m v).length = v.len := by simp [viewBytes]

/-- Byte `k` of the value read through a view is `S[i + k]` (R87, R100). -/
theorem readValue_viewBytes_byte (m : Memory) {v : View} (hv : v.len ≤ 4) {k : Nat} (hk : k < v.len) :
    (readValue (viewBytes m v)).extractLsb' (8 * k) 8 = Memory.read m (v.start + k) := by
  have hlen : k < (viewBytes m v).length := by rwa [viewBytes_length]
  apply BitVec.eq_of_toNat_eq
  rw [BitVec.extractLsb'_toNat, readValue_toNat (by rwa [viewBytes_length]), Nat.shiftRight_eq_div_pow, leDecode_byte hlen]
  simp [viewBytes]

theorem readValue_viewBytes_lt (m : Memory) {v : View} (hv : v.len ≤ 4) :
    (readValue (viewBytes m v)).toNat < 2 ^ (8 * v.len) := by
  rw [readValue_toNat (by rwa [viewBytes_length]), ← viewBytes_length m v]
  exact leDecode_lt _

/-! ### One rule per transfer -/

theorem running_of_valid_zero {s : State} (h : s.fr.valid = 0#1) : s.fr.valid ≠ 1#1 := by
  rw [h]
  decide

theorem freeOfWriters_of_no_views {s : State} (h : s.views = []) (i n : Nat) : s.FreeOfWriters i n := by
  rw [free_writers_iff, h, conflicts_nil]

/-- A read of a covered range that no mutable view overlaps answers the word whose bytes storage holds there. -/
theorem exec_readInstr_answers {w : AccessWidth} {a : Address} {i : Nat} {s : State} (hs : s.fr.valid = 0#1)
    (hc : s.region.Covers a w.bytes i) (hf : s.FreeOfWriters i w.bytes) :
    ∃ u r, exec (readInstr w a) s = .next u ∧ u.rsp.rdata = some r ∧ r.toNat < 2 ^ (8 * w.bytes) ∧
      ∀ k, k < w.bytes → r.extractLsb' (8 * k) 8 = Memory.read s.storage (i + k) := by
  have hw := AccessWidth.bytes_le_four w
  rw [exec_readInstr, readOp_completes (running_of_valid_zero hs) (Region.covers_locate.mp hc) (free_writers_iff.mp hf)]
  exact ⟨_, _, rfl, rfl, readValue_viewBytes_lt _ hw, fun k hk => readValue_viewBytes_byte _ hw hk⟩

/-- The state `t` is what a write of `v` at storage index `i` may leave of `s`: its bytes in storage, every other byte as it
was, and no live view. -/
structure Written (w : AccessWidth) (v : Word) (i : Nat) (s t : State) : Prop where
  region : t.region = s.region
  fr : t.fr = s.fr
  views : t.views = []
  storage : ∀ j, Memory.read t.storage j =
    if i ≤ j ∧ j < i + w.bytes then v.extractLsb' (8 * (j - i)) 8 else Memory.read s.storage j

/-- A write to a covered range that no view overlaps completes. -/
theorem exec_writeInstr_completes {w : AccessWidth} {a : Address} {i : Nat} {s : State} (v : Word) (hs : s.fr.valid = 0#1)
    (hc : s.region.Covers a w.bytes i) (hf : s.FreeOfViews i w.bytes) :
    ∃ t, exec (writeInstr w a v) s = .next t ∧ Written w v i s t := by
  rw [exec_writeInstr, writeOp_completes (running_of_valid_zero hs) (Region.covers_locate.mp hc) (free_views_iff.mp hf)]
  exact ⟨_, rfl, rfl, rfl, rfl, read_write_transfer w v s.storage i⟩

/-- A read after a write answers the bytes the write left (R51). -/
theorem Written.read {w w' : AccessWidth} {v : Word} {a' : Address} {i i' : Nat} {s t : State} (h : Written w v i s t)
    (hs : s.fr.valid = 0#1) (hc : s.region.Covers a' w'.bytes i') :
    ∃ u r, exec (readInstr w' a') t = .next u ∧ u.rsp.rdata = some r ∧ r.toNat < 2 ^ (8 * w'.bytes) ∧
      ∀ k, k < w'.bytes → r.extractLsb' (8 * k) 8 =
        if i ≤ i' + k ∧ i' + k < i + w.bytes then v.extractLsb' (8 * (i' + k - i)) 8 else Memory.read s.storage (i' + k) := by
  obtain ⟨u, r, hu, hr, hlt, hbytes⟩ := exec_readInstr_answers (h.fr ▸ hs) (h.region ▸ hc)
    (freeOfWriters_of_no_views h.views i' w'.bytes)
  exact ⟨u, r, hu, hr, hlt, fun k hk => (hbytes k hk).trans (h.storage (i' + k))⟩

/-- A read inside the bytes just written answers those bytes of the value (R42). -/
theorem Written.read_inside {w w' : AccessWidth} {v : Word} {a' : Address} {i k : Nat} {s t : State}
    (h : Written w v i s t) (hs : s.fr.valid = 0#1) (hc : s.region.Covers a' w'.bytes (i + k))
    (hk : k + w'.bytes ≤ w.bytes) :
    ∃ u, exec (readInstr w' a') t = .next u ∧
      u.rsp.rdata = some ((v.extractLsb' (8 * k) (8 * w'.bytes)).setWidth 32) := by
  obtain ⟨u, r, hu, hr, hlt, hbytes⟩ := h.read hs hc
  have hslice : r = (v.extractLsb' (8 * k) (8 * w'.bytes)).setWidth 32 := by
    refine word_eq_of_bytes hlt (slice_lt v k w'.bytes) fun q hq => ?_
    have hin : i ≤ i + k + q ∧ i + k + q < i + w.bytes := by omega
    have hoff : i + k + q - i = k + q := by omega
    rw [hbytes q hq, if_pos hin, hoff, slice_byte v hq (AccessWidth.bytes_le_four w')]
  exact ⟨u, hu, hslice ▸ hr⟩

/-- Both transfers take the fatal path where the range is not covered (R132). -/
theorem exec_transfer_uncovered {w : AccessWidth} {a : Address} {s : State} (v : Word) (hs : s.fr.valid = 0#1)
    (hc : ∀ i, ¬s.region.Covers a w.bytes i) :
    (∃ t, exec (writeInstr w a v) s = .fault (.rangeFault t)) ∧ ∃ t, exec (readInstr w a) s = .fault (.rangeFault t) := by
  have hrun := running_of_valid_zero hs
  have hnc := Region.not_covers.mp hc
  rw [exec_writeInstr, exec_readInstr, writeOp_uncovered hrun hnc, readOp_uncovered hrun hnc]
  exact ⟨⟨_, rfl⟩, ⟨_, rfl⟩⟩

/-- A range that passes the top address is covered by no index function (R50). -/
theorem exec_transfer_past_top {w : AccessWidth} {a : Address} {s : State} (v : Word) (hs : s.fr.valid = 0#1)
    (ha : 2 ^ 32 < a.toNat + w.bytes) :
    (∃ t, exec (writeInstr w a v) s = .fault (.rangeFault t)) ∧ ∃ t, exec (readInstr w a) s = .fault (.rangeFault t) :=
  exec_transfer_uncovered v hs fun _ hc => ha.not_ge hc.1

/-! ### Reads after a write -/

/-- Settles O18: the read at the write's own address is the one inside it at offset 0, of all its bytes. -/
theorem readAfterWriteReturnsTheValue : Obligations.ReadAfterWriteReturnsTheValue := by
  unfold Obligations.ReadAfterWriteReturnsTheValue
  refine fun w a v s hs hv => ⟨fun i hc hf => ?_, exec_transfer_uncovered v hs⟩
  obtain ⟨t, ht, hwritten⟩ := exec_writeInstr_completes v hs hc hf
  obtain ⟨u, hu, hr⟩ := hwritten.read_inside (w' := w) (k := 0) hs hc (Nat.zero_add _).le
  rw [slice_eq_self hv (AccessWidth.bytes_le_four w)] at hr
  exact ⟨t, u, ht, hu, hr⟩

/-- After a WRITE32 in a well-formed region, a read inside its four bytes answers those bytes of the value (R41, R42). -/
theorem exec_write32_then_read {a : Address} {i : Nat} {s : State} (v : Word) (hs : s.fr.valid = 0#1)
    (hwf : RegionWf s.region.idx s.region.cap) (hc : s.region.Covers a 4 i) (hf : s.FreeOfViews i 4) :
    ∃ t, exec (.write32 a v) s = .next t ∧ ∀ (w : AccessWidth) (k : Nat), k + w.bytes ≤ 4 →
      ∃ u, exec (readInstr w (a + BitVec.ofNat 32 k)) t = .next u ∧
        u.rsp.rdata = some ((v.extractLsb' (8 * k) (8 * w.bytes)).setWidth 32) := by
  obtain ⟨t, ht, hwritten⟩ := exec_writeInstr_completes (w := .w32) v hs hc hf
  refine ⟨t, ht, fun w k hk => hwritten.read_inside hs (hc.inside hwf ?_ hk) hk⟩
  have := Nat.pos_of_ne_zero (AccessWidth.bytes_ne_zero w)
  omega

/-- Settles O19: the four READ8 commands are the reads of one byte at offsets 0 to 3. -/
theorem littleEndianBytesOfDeadbeef : Obligations.LittleEndianBytesOfDeadbeef := by
  unfold Obligations.LittleEndianBytesOfDeadbeef
  intro a i s hs hwf hc hf
  obtain ⟨t, ht, hread⟩ := exec_write32_then_read 0xDEADBEEF#32 hs hwf hc hf
  have hbase := hread .w8 0 (by decide)
  rw [BitVec.add_zero] at hbase
  exact ⟨t, ht, hbase, hread .w8 1 (by decide), hread .w8 2 (by decide), hread .w8 3 (by decide)⟩

/-- Settles O20: the READ16 is the read of two bytes at offset `k`. -/
theorem mixedWidthReadSeesTheBytes : Obligations.MixedWidthReadSeesTheBytes := by
  unfold Obligations.MixedWidthReadSeesTheBytes
  intro a v i k s hs hwf hc hf hk
  obtain ⟨t, ht, hread⟩ := exec_write32_then_read v hs hwf hc hf
  obtain ⟨u, hu, hr⟩ := hread .w16 k (Nat.add_le_add_right hk 2)
  exact ⟨t, u, ht, hu, hr⟩

/-- Settles O21: the read sees storage as the write left it, whatever addresses named the bytes. -/
theorem mirroredAddressesNameOneByte : Obligations.MirroredAddressesNameOneByte := by
  unfold Obligations.MirroredAddressesNameOneByte
  intro w w' a a' v i i' s hs hc hc' hf
  obtain ⟨t, ht, hwritten⟩ := exec_writeInstr_completes v hs hc hf
  obtain ⟨u, r, hu, hr, -, hbytes⟩ := hwritten.read hs hc'
  exact ⟨t, u, r, ht, hu, hr, hbytes⟩

/-- Settles O22: R24 adds natural numbers, so no index function covers a range past the top. -/
theorem rangesDoNotWrap : Obligations.RangesDoNotWrap := by
  unfold Obligations.RangesDoNotWrap
  refine ⟨fun w a v s hs ha => (exec_transfer_past_top v hs ha).symm, fun s hs => ⟨?_, ?_, ?_, ?_⟩, fun r => ⟨?_, ?_, ?_⟩⟩
  · exact (exec_transfer_past_top (w := .w32) 0 hs (by decide)).2
  · exact (exec_transfer_past_top (w := .w32) 0 hs (by decide)).2
  · exact (exec_transfer_past_top (w := .w32) 0 hs (by decide)).2
  · exact (exec_transfer_past_top (w := .w16) 0 hs (by decide)).2
  · exact Region.covers_iff_of_le (by decide)
  · exact Region.covers_iff_of_le (by decide)
  · exact Region.covers_iff_of_le (by decide)

/-! ### A command repeated (R47) -/

/-- Every command is a read, a write or a query. -/
theorem command_cases {i : Instr} (hi : i.isCommand = true) :
    (∃ w a, i = readInstr w a) ∨ (∃ w a v, i = writeInstr w a v) ∨ ∃ t w a, i = cyclesInstr t w a := by
  rcases instr_cases i with h | h | h | ⟨a, n, rfl⟩ | ⟨a, n, rfl⟩ | ⟨a, d, rfl⟩
  · exact .inl h
  · exact .inr (.inl h)
  · exact .inr (.inr h)
  · cases hi
  · cases hi
  · cases hi

/-- Writing the same bytes again changes nothing: storage in canonical form is its contents. -/
theorem Memory.writeBytes_again {m : Memory} (h : Memory.wf m) (i : Nat) (bs : List Byte) :
    Memory.writeBytes (Memory.writeBytes m i bs) i bs = Memory.writeBytes m i bs := by
  have hwf := Memory.writeBytes_wf bs h i
  refine Memory.ext (Memory.writeBytes_wf bs hwf i) hwf fun j => ?_
  rw [Memory.read_writeBytes bs (Memory.writeBytes m i bs)]
  split
  · next hj => rw [Memory.read_writeBytes, dif_pos hj]
  · rfl

/-- A completed command runs again, since it left no view that could conflict, and leaves the state it left before. -/
theorem exec_again {i : Instr} {s t : State} (hi : i.isCommand = true) (hm : Memory.wf s.storage)
    (h : exec i s = .next t) : exec i t = .next t := by
  rcases command_cases hi with ⟨w, a, rfl⟩ | ⟨w, a, v, rfl⟩ | ⟨ty, w, a, rfl⟩
  · rw [exec_readInstr] at h ⊢
    obtain ⟨hs, j, hj, -, rfl⟩ := readOp_eq_next h
    exact readOp_completes hs hj (conflicts_nil _)
  · rw [exec_writeInstr] at h ⊢
    obtain ⟨hs, j, hj, -, rfl⟩ := writeOp_eq_next h
    rw [writeOp_completes (s := endCommand _ { s with storage := _ }) hs hj (conflicts_nil _), endCommand_storage,
      Memory.writeBytes_again hm]
    rfl
  · rw [exec_cyclesInstr] at h ⊢
    obtain ⟨hs, rfl⟩ := cyclesOp_eq_next h
    exact cyclesOp_completes hs

/-- Settles O26: a command repeated by `exec_again`, and only a write changes storage. -/
theorem repeatedCommandChangesNothing : Obligations.RepeatedCommandChangesNothing := by
  unfold Obligations.RepeatedCommandChangesNothing
  intro i s t hi hm h
  obtain ⟨-, hfr, -⟩ := exec_next_keeps h
  refine ⟨exec_again hi hm h, hfr, fun hnot => ?_⟩
  rcases exec_next_storage h with he | ⟨w, a, v, j, rfl, -, -⟩
  · exact he
  · exact absurd rfl (hnot w a v)

/-! ### Storage along a step and a run (R40, R52) -/

theorem byteAfter_of_no_write {r : Region} {x : Issue} (h : writeOf r x = none) (j : Nat) (b : Byte) :
    byteAfter r x j b = b := by simp only [byteAfter, h]

theorem byteAfter_of_write {r : Region} {x : Issue} {i : Nat} {w : AccessWidth} {v : Word}
    (h : writeOf r x = some (i, w, v)) (j : Nat) (b : Byte) :
    byteAfter r x j b = if i ≤ j ∧ j < i + w.bytes then v.extractLsb' (8 * (j - i)) 8 else b := by
  simp only [byteAfter, h]

/-- No primitive issued directly is a command. -/
theorem isCommand_of_rp {q : RpRequest} {i : Instr} (h : decode (.rp q) = .instr i) : i.isCommand = false := by
  rcases decodeRp_cases q with ⟨n, -, -, hd⟩ | ⟨n, -, -, hd⟩ | ⟨d, -, hd⟩ | hd | hd | hd
  · rw [hd] at h; cases h; rfl
  · rw [hd] at h; cases h; rfl
  · rw [hd] at h; cases h; rfl
  all_goals rw [hd] at h; cases h

/-- What the instruction of a request leaves at a storage index. -/
theorem exec_storage_of_decode {x : Issue} {i : Instr} {s t : State} (hd : decode x = .instr i) (h : exec i s = .next t)
    (j : Nat) : Memory.read t.storage j = byteAfter s.region x j (Memory.read s.storage j) := by
  cases x with
  | rp q =>
    rw [byteAfter_of_no_write rfl]
    rcases exec_next_storage h with he | ⟨w, a, v, k, rfl, -, -⟩
    · rw [he]
    · have hcmd := isCommand_of_rp hd
      cases w <;> cases hcmd
  | cmd r =>
    rcases decodeCmd_cases r with ⟨w, hw, he⟩ | ⟨w, hw, he⟩ | ⟨ty, w, hw, he⟩ | ⟨-, he⟩
    · rw [he] at hd; cases hd
      rw [exec_readInstr] at h
      obtain ⟨-, k, -, -, rfl⟩ := readOp_eq_next h
      rw [byteAfter_of_no_write (by simp only [writeOf, hw]), endCommand_storage]
    · rw [he] at hd; cases hd
      rw [exec_writeInstr] at h
      obtain ⟨-, k, hk, -, rfl⟩ := writeOp_eq_next h
      have hwrite : writeOf s.region (.cmd r) = some (k, w, r.wdata) := by simp only [writeOf, hw, hk, Option.map_some]
      rw [byteAfter_of_write hwrite, endCommand_storage, read_write_transfer]
    · rw [he] at hd; cases hd
      rw [exec_cyclesInstr] at h
      obtain ⟨-, rfl⟩ := cyclesOp_eq_next h
      rw [byteAfter_of_no_write (by simp only [writeOf, hw]), endCommand_storage]
    · rw [he] at hd; cases hd

/-- Settles O54: the step completes by running the request's instruction. -/
theorem completedStepLeavesItsBytes : Obligations.CompletedStepLeavesItsBytes := by
  unfold Obligations.CompletedStepLeavesItsBytes
  intro x rest s t hc h j
  rcases step_eq_next h with ⟨-, hn, -⟩ | ⟨y, ys, i, u, hy, hd, hu, rfl⟩
  · rw [hc] at hn; cases hn
  · obtain rfl : x = y := (List.cons.inj (hc.symm.trans hy)).1
    rw [retire_storage]
    exact exec_storage_of_decode hd hu j

/-- What every completing step keeps holds at the end of a run that completes, for every machine. -/
theorem run_keeps {M : Host.Core} {P : M.State → Prop} (hstep : ∀ u v, P u → M.step u = .next v → P v) {n : Nat}
    {s t : M.State} (hs : P s) (h : M.run n s = .next t) : P t := by
  induction n generalizing s with
  | zero => cases h; exact hs
  | succ n ih =>
    obtain ⟨u, hu, hrun⟩ := run_succ_eq_next h
    exact ih (hstep s u hs hu) hrun

/-- A completed run leaves at each storage index the last byte written there, by induction on its length with
`completedStepLeavesItsBytes` at each step. -/
theorem run_storage {n : Nat} {s t : State} (hn : n ≤ s.commands.length)
    (h : Host.Core.run Sys2Proof.core n s = .next t) (j : Nat) :
    Memory.read t.storage j = lastWritten s.region j (s.commands.take n) (Memory.read s.storage j) := by
  induction n generalizing s with
  | zero =>
    cases h
    rfl
  | succ n ih =>
    obtain ⟨u, hu, hrun⟩ := run_succ_eq_next h
    cases hc : s.commands with
    | nil => rw [hc] at hn; cases hn
    | cons x rest =>
      have hcommands := (step_next_moves hc hu).1
      rw [hc, List.length_cons, Nat.succ_le_succ_iff] at hn
      rw [ih (hcommands ▸ hn) hrun, hcommands, (step_next_keeps hu).1, List.take_succ_cons, lastWritten,
        completedStepLeavesItsBytes x rest s u hc hu]

/-- READ8 of a covered byte that no mutable view overlaps answers that byte (R101). -/
theorem exec_read8_answers {a : Address} {j : Nat} {s : State} (hs : s.fr.valid = 0#1) (hc : s.region.Covers a 1 j)
    (hf : s.FreeOfWriters j 1) :
    ∃ u, exec (.read8 a) s = .next u ∧ u.rsp.rdata = some ((Memory.read s.storage j).setWidth 32) := by
  rw [← readValue_one]
  exact ⟨_, readOp_completes (w := .w8) (running_of_valid_zero hs) (Region.covers_locate.mp hc) (free_writers_iff.mp hf), rfl⟩

/-- Settles O52: the run ends in a state that READ8 runs on, with storage as `run_storage` says. -/
theorem readsReturnTheLastWrite : Obligations.ReadsReturnTheLastWrite := by
  unfold Obligations.ReadsReturnTheLastWrite
  intro n s t hs hvalid hinit hn h a j hc
  have hrun : t.ControllerRun := run_keeps (M := Sys2Proof.core) (fun _ _ hu => step_keeps_run hu) hs h
  have hkept : t.region = s.region ∧ t.fr = s.fr :=
    run_keeps (M := Sys2Proof.core) (P := fun u : State => u.region = s.region ∧ u.fr = s.fr)
      (fun _ _ hu hv => ⟨(step_next_keeps hv).1.trans hu.1, (step_next_keeps hv).2.trans hu.2⟩) ⟨rfl, rfl⟩ h
  obtain ⟨hregion, hfr⟩ := hkept
  rw [← hinit, ← run_storage hn h j]
  exact exec_read8_answers (hfr ▸ hvalid) (hregion ▸ hc) (freeOfWriters_of_no_views hrun.no_views j 1)

end Machine

end Sys2Proof

/-! SUPPORT. The encodings (R60 to R73): descriptors and their codes, the decoder on each word, decode and encode on both
ports, the illegal words, the assembler, and what the step does with a request that decodes so. -/

namespace Sys2Proof

/-! ### Descriptors and their codes (R66, R84) -/

/-- The fields read back from a descriptor's code are the descriptor. -/
@[simp] theorem Descriptor.ofCode_code (d : Descriptor) : Descriptor.ofCode d.code = some d := by
  obtain ⟨t, w⟩ := d
  cases t <;> cases w <;> decide

theorem Descriptor.code_injective {d d' : Descriptor} (h : d.code = d'.code) : d = d' := by
  have hread := congrArg Descriptor.ofCode h
  simpa using hread

theorem Descriptor.ofCode_eq_none {e : BitVec 3} (h : e = 0b011#3 ∨ e = 0b111#3) : Descriptor.ofCode e = none := by
  rcases h with rfl | rfl <;> decide

/-- No descriptor has a reserved code, since a reserved code reads back as none. -/
theorem Descriptor.code_not_reserved (d : Descriptor) : ¬(d.code = 0b011#3 ∨ d.code = 0b111#3) := fun h => by
  have hnone := Descriptor.ofCode_eq_none h
  simp at hnone

/-! ### The decoder on the words of the table (R67, R69) -/

@[simp] theorem decodeWord_readInstr_word (w : AccessWidth) (a : Address) : decodeWord (readInstr w a).word = .read w := by
  cases w
  · exact decodeWord_read8
  · exact decodeWord_read16
  · exact decodeWord_read32

@[simp] theorem decodeWord_writeInstr_word (w : AccessWidth) (a : Address) (v : Word) :
    decodeWord (writeInstr w a v).word = .write w := by
  cases w
  · exact decodeWord_write8
  · exact decodeWord_write16
  · exact decodeWord_write32

@[simp] theorem decodeWord_cyclesInstr_word (t : AccessType) (w : AccessWidth) (a : Address) :
    decodeWord (cyclesInstr t w a).word = .cycles t w := by
  cases t <;> cases w
  · exact decodeWord_cyclesN8
  · exact decodeWord_cyclesN16
  · exact decodeWord_cyclesN32
  · exact decodeWord_cyclesS8
  · exact decodeWord_cyclesS16
  · exact decodeWord_cyclesS32

theorem decode_of_read {r : Request} {w : AccessWidth} (h : decodeWord r.cmd = .read w) :
    decode (.cmd r) = .instr (readInstr w r.addr) := by simp only [decode, decodeCmd, h]

theorem decode_of_write {r : Request} {w : AccessWidth} (h : decodeWord r.cmd = .write w) :
    decode (.cmd r) = .instr (writeInstr w r.addr r.wdata) := by simp only [decode, decodeCmd, h]

theorem decode_of_cycles {r : Request} {t : AccessType} {w : AccessWidth} (h : decodeWord r.cmd = .cycles t w) :
    decode (.cmd r) = .instr (cyclesInstr t w r.addr) := by simp only [decode, decodeCmd, h]

theorem decode_getBytes {a : Address} {n : Nat} (e : BitVec 3) (hn : 1 ≤ n) :
    decode (.rp ⟨0x00#8, a, n, e⟩) = .instr (.getBytes a n) := by
  simp [decode, decodeRp, Nat.ne_of_gt hn]

theorem decode_getBytesMut {a : Address} {n : Nat} (e : BitVec 3) (hn : 1 ≤ n) :
    decode (.rp ⟨0x01#8, a, n, e⟩) = .instr (.getBytesMut a n) := by
  simp [decode, decodeRp, Nat.ne_of_gt hn]

theorem decode_getCycles (a : Address) (n : Nat) (d : Descriptor) :
    decode (.rp ⟨0x02#8, a, n, d.code⟩) = .instr (.getCycles a d) := by
  simp [decode, decodeRp]

theorem decode_zeroLength {q : RpRequest} (hp : q.prim = 0x00#8 ∨ q.prim = 0x01#8) (hn : q.len = 0) :
    decode (.rp q) = .zeroLength := by
  rcases hp with hp | hp <;> simp [decode, decodeRp, hp, hn]

theorem decode_illegalDescriptor {q : RpRequest} (hp : q.prim = 0x02#8) (hd : q.desc = 0b011#3 ∨ q.desc = 0b111#3) :
    decode (.rp q) = .illegalDescriptor q.desc := by
  simp [decode, decodeRp, hp, Descriptor.ofCode_eq_none hd]

/-- Settles O3: each word by the decoder's equation for it. -/
theorem tableWordsDecodeToTheirInstructions : Obligations.TableWordsDecodeToTheirInstructions := by
  unfold Obligations.TableWordsDecodeToTheirInstructions
  intro a d n m desc e hn
  refine ⟨decode_of_read (w := .w8) decodeWord_read8, decode_of_read (w := .w16) decodeWord_read16,
    decode_of_read (w := .w32) decodeWord_read32, decode_of_write (w := .w8) decodeWord_write8,
    decode_of_write (w := .w16) decodeWord_write16, decode_of_write (w := .w32) decodeWord_write32, ?_, ?_, ?_, ?_, ?_, ?_,
    decode_getBytes e hn, decode_getBytesMut e hn, decode_getCycles a m desc⟩
  · exact decode_of_cycles (t := .nonSequential) (w := .w8) decodeWord_cyclesN8
  · exact decode_of_cycles (t := .nonSequential) (w := .w16) decodeWord_cyclesN16
  · exact decode_of_cycles (t := .nonSequential) (w := .w32) decodeWord_cyclesN32
  · exact decode_of_cycles (t := .sequential) (w := .w8) decodeWord_cyclesS8
  · exact decode_of_cycles (t := .sequential) (w := .w16) decodeWord_cyclesS16
  · exact decode_of_cycles (t := .sequential) (w := .w32) decodeWord_cyclesS32

/-! ### Decode and encode (R60, R71) -/

theorem encode_readInstr (w : AccessWidth) (a : Address) :
    encode (readInstr w a) = .cmd ⟨(readInstr w a).word, a, 0⟩ := by cases w <;> rfl

theorem encode_writeInstr (w : AccessWidth) (a : Address) (v : Word) :
    encode (writeInstr w a v) = .cmd ⟨(writeInstr w a v).word, a, v⟩ := by cases w <;> rfl

theorem encode_cyclesInstr (t : AccessType) (w : AccessWidth) (a : Address) :
    encode (cyclesInstr t w a) = .cmd ⟨(cyclesInstr t w a).word, a, 0⟩ := by cases t <;> cases w <;> rfl

theorem cyclesInstr_word (t : AccessType) (w : AccessWidth) (a : Address) :
    (cyclesInstr t w a).word = (cyclesInstr t w 0).word := by cases t <;> cases w <;> rfl

theorem decode_encode {i : Instr} (h : i.wellFormed = true) : decode (encode i) = .instr i := by
  rcases Machine.instr_cases i with
    ⟨w, a, rfl⟩ | ⟨w, a, v, rfl⟩ | ⟨t, w, a, rfl⟩ | ⟨a, n, rfl⟩ | ⟨a, n, rfl⟩ | ⟨a, d, rfl⟩
  · rw [encode_readInstr]
    exact decode_of_read (decodeWord_readInstr_word w a)
  · rw [encode_writeInstr]
    exact decode_of_write (decodeWord_writeInstr_word w a v)
  · rw [encode_cyclesInstr]
    exact decode_of_cycles (decodeWord_cyclesInstr_word t w a)
  · exact decode_getBytes 0 (of_decide_eq_true h)
  · exact decode_getBytesMut 0 (of_decide_eq_true h)
  · exact decode_getCycles a 0 d

/-- Settles O1: by the kind of instruction, each decoded from the request the encoder gives it. -/
theorem decodeOfEncodeIsTheInstruction : Obligations.DecodeOfEncodeIsTheInstruction := by
  unfold Obligations.DecodeOfEncodeIsTheInstruction
  exact fun i => decode_encode

/-- Settles O2: the word of the instruction is the request's word, as no two legal words have one meaning. -/
theorem encodeOfDecodeIsTheRequest : Obligations.EncodeOfDecodeIsTheRequest := by
  unfold Obligations.EncodeOfDecodeIsTheRequest
  intro r i h
  refine ⟨Machine.isCommand_of_request h, ?_⟩
  obtain ⟨hread, hwrite, hcycles⟩ := word_of_decodeWord
  rcases decodeCmd_cases r with ⟨w, hw, hd⟩ | ⟨w, hw, hd⟩ | ⟨t, w, hw, hd⟩ | ⟨-, hd⟩
  · rw [hd] at h; cases h
    refine ⟨_, encode_readInstr w r.addr, ?_, rfl, fun ⟨w', hw'⟩ => ?_⟩
    · exact (Machine.readInstr_word w r.addr).trans (hread _ _ hw)
    · rw [hw] at hw'; cases hw'
  · rw [hd] at h; cases h
    refine ⟨_, encode_writeInstr w r.addr r.wdata, ?_, rfl, fun _ => rfl⟩
    exact (Machine.writeInstr_word w r.addr r.wdata).trans (hwrite _ _ hw)
  · rw [hd] at h; cases h
    refine ⟨_, encode_cyclesInstr t w r.addr, ?_, rfl, fun ⟨w', hw'⟩ => ?_⟩
    · exact (cyclesInstr_word t w r.addr).trans (hcycles _ _ _ hw)
    · rw [hw] at hw'; cases hw'
  · rw [hd] at h; cases h

/-! ### The assembler (R73) -/

theorem readInstr_mnemonic (w : AccessWidth) (a : Address) : (readInstr w a).mnemonic = (readInstr w 0).mnemonic := by
  cases w <;> rfl

theorem writeInstr_mnemonic (w : AccessWidth) (a : Address) (v : Word) :
    (writeInstr w a v).mnemonic = (writeInstr w 0 0).mnemonic := by cases w <;> rfl

theorem cyclesInstr_mnemonic (t : AccessType) (w : AccessWidth) (a : Address) :
    (cyclesInstr t w a).mnemonic = (cyclesInstr t w 0).mnemonic := by cases t <;> cases w <;> rfl

theorem isCommand_readInstr (w : AccessWidth) (a : Address) : (readInstr w a).isCommand = true := by cases w <;> rfl

theorem isCommand_writeInstr (w : AccessWidth) (a : Address) (v : Word) : (writeInstr w a v).isCommand = true := by
  cases w <;> rfl

theorem isCommand_cyclesInstr (t : AccessType) (w : AccessWidth) (a : Address) : (cyclesInstr t w a).isCommand = true := by
  cases t <;> cases w <;> rfl

theorem lookup_read (w : AccessWidth) : asmTable.lookup (readInstr w 0).mnemonic = some (.read w) := by
  cases w <;> decide

theorem lookup_write (w : AccessWidth) : asmTable.lookup (writeInstr w 0 0).mnemonic = some (.write w) := by
  cases w <;> decide

theorem lookup_cycles (t : AccessType) (w : AccessWidth) :
    asmTable.lookup (cyclesInstr t w 0).mnemonic = some (.cycles t w) := by
  cases t <;> cases w <;> decide

/-- A mnemonic of the table is that of the command it asks for. -/
theorem mnemonic_of_lookup {m : String} :
    (∀ w, asmTable.lookup m = some (.read w) → (readInstr w 0).mnemonic = m) ∧
    (∀ w, asmTable.lookup m = some (.write w) → (writeInstr w 0 0).mnemonic = m) ∧
    (∀ t w, asmTable.lookup m = some (.cycles t w) → (cyclesInstr t w 0).mnemonic = m) := by
  have mem {op : Op} (h : asmTable.lookup m = some op) : (m, op) ∈ asmTable := by
    obtain ⟨before, after, he, -⟩ := List.lookup_eq_some_iff.mp h
    simp [he]
  refine ⟨fun w h => ?_, fun w h => ?_, fun t w h => ?_⟩
  · cases w <;> simpa [asmTable, readInstr, Instr.mnemonic, eq_comm] using mem h
  · cases w <;> simpa [asmTable, writeInstr, Instr.mnemonic, eq_comm] using mem h
  · cases t <;> cases w <;> simpa [asmTable, cyclesInstr, Instr.mnemonic, eq_comm] using mem h

theorem asmAddr_of_lt {a : Nat} (h : a < 2 ^ 32) : asmAddr a = some (BitVec.ofNat 32 a) := if_pos h

theorem asmOfAddr_eq_some {f : Address → Instr} {ns : List Nat} {i : Instr} (h : asmOfAddr f ns = some i) :
    ∃ a, i = f a := by
  unfold asmOfAddr at h
  split at h
  · obtain ⟨a, -, ha⟩ := Option.map_eq_some_iff.mp h
    exact ⟨a, ha.symm⟩
  · cases h
  · cases h

theorem asmOfAddrValue_eq_some {w : AccessWidth} {ns : List Nat} {i : Instr} (h : asmOfAddrValue w ns = some i) :
    ∃ a v, i = writeInstr w a v := by
  unfold asmOfAddrValue at h
  split at h
  · split at h
    · exact ⟨_, _, (Option.some.inj h).symm⟩
    · cases h
    · cases h
  · cases h
  · cases h
  · cases h

/-- Everything the assembler emits: a command of the kind and width that the line's mnemonic asks for. -/
theorem assemble_cases {l : AsmLine} {i : Instr} (h : assemble l = some i) :
    (∃ w a, asmTable.lookup l.mnemonic = some (.read w) ∧ i = readInstr w a) ∨
    (∃ w a v, asmTable.lookup l.mnemonic = some (.write w) ∧ i = writeInstr w a v) ∨
    (∃ t w a, asmTable.lookup l.mnemonic = some (.cycles t w) ∧ i = cyclesInstr t w a) := by
  unfold assemble at h
  split at h
  · next w hw =>
    obtain ⟨a, ha⟩ := asmOfAddr_eq_some h
    exact .inl ⟨w, a, hw, ha⟩
  · next w hw =>
    obtain ⟨a, v, hv⟩ := asmOfAddrValue_eq_some h
    exact .inr (.inl ⟨w, a, v, hw, hv⟩)
  · next t w hw =>
    obtain ⟨a, ha⟩ := asmOfAddr_eq_some h
    exact .inr (.inr ⟨t, w, a, hw, ha⟩)
  · cases h
  · cases h

/-- What the assembler emits is a command with the mnemonic of its line. -/
theorem assemble_named {l : AsmLine} {i : Instr} (h : assemble l = some i) :
    i.isCommand = true ∧ i.mnemonic = l.mnemonic := by
  obtain ⟨hread, hwrite, hcycles⟩ := mnemonic_of_lookup (m := l.mnemonic)
  rcases assemble_cases h with ⟨w, a, hl, rfl⟩ | ⟨w, a, v, hl, rfl⟩ | ⟨t, w, a, hl, rfl⟩
  · exact ⟨isCommand_readInstr w a, (readInstr_mnemonic w a).trans (hread w hl)⟩
  · exact ⟨isCommand_writeInstr w a v, (writeInstr_mnemonic w a v).trans (hwrite w hl)⟩
  · exact ⟨isCommand_cyclesInstr t w a, (cyclesInstr_mnemonic t w a).trans (hcycles t w hl)⟩

theorem assemble_read (w : AccessWidth) {a : Nat} (h : a < 2 ^ 32) :
    assemble ⟨(readInstr w 0).mnemonic, [a]⟩ = some (readInstr w (BitVec.ofNat 32 a)) := by
  simp only [assemble, lookup_read, asmOfAddr, asmAddr_of_lt h, Option.map_some]

theorem assemble_cycles (t : AccessType) (w : AccessWidth) {a : Nat} (h : a < 2 ^ 32) :
    assemble ⟨(cyclesInstr t w 0).mnemonic, [a]⟩ = some (cyclesInstr t w (BitVec.ofNat 32 a)) := by
  simp only [assemble, lookup_cycles, asmOfAddr, asmAddr_of_lt h, Option.map_some]

/-- A value wider than the write's width is an error; another is kept whole. -/
theorem assemble_write (w : AccessWidth) {a : Nat} (v : Nat) (h : a < 2 ^ 32) :
    assemble ⟨(writeInstr w 0 0).mnemonic, [a, v]⟩ =
      if v < 2 ^ (8 * w.bytes) then some (writeInstr w (BitVec.ofNat 32 a) (BitVec.ofNat 32 v)) else none := by
  simp only [assemble, lookup_write, asmOfAddrValue, asmAddr_of_lt h, asmValue]
  by_cases hv : v < 2 ^ (8 * w.bytes)
  · simp only [if_pos hv]
  · simp only [if_neg hv]

theorem wellFormed_of_isCommand {i : Instr} (h : i.isCommand = true) : i.wellFormed = true := by
  cases i with
  | getBytes a n => cases h
  | getBytesMut a n => cases h
  | _ => rfl

/-- Settles O6: the emitted command by its line's mnemonic, and one equation for each kind of line. -/
theorem assemblerEmitsTheNamedCommand : Obligations.AssemblerEmitsTheNamedCommand := by
  unfold Obligations.AssemblerEmitsTheNamedCommand
  refine ⟨fun l i h => ?_, fun w a v ha => assemble_write w v ha,
    fun w a ha => ⟨assemble_read w ha, fun t => assemble_cycles t w ha⟩⟩
  obtain ⟨hcommand, hname⟩ := assemble_named h
  exact ⟨hcommand, hname, decode_encode (wellFormed_of_isCommand hcommand)⟩

/-! ### The illegal words (R70) -/

/-- The six classes of illegal words are all of them. -/
theorem legal_eq_false_iff (c : BitVec 8) : legal c = false ↔
    0x20#8 ≤ c ∨ (0x18#8 ≤ c ∧ c ≤ 0x1F#8) ∨
    c ∈ [0x03#8, 0x07#8, 0x0B#8, 0x0F#8] ∨ c ∈ [0x13#8, 0x17#8] ∨ c ∈ [0x04#8, 0x05#8, 0x06#8] ∨
    c ∈ [0x0C#8, 0x0D#8, 0x0E#8] := by
  revert c
  decide

/-- The 256 words are the 32 with `RSV` = 0 and the 224 with `RSV` nonzero. -/
theorem countP_words (p : Nat → Bool) :
    (List.range 256).countP p = (List.range 32).countP p + (List.range 224).countP fun c => p (32 + c) := by
  rw [show 256 = 32 + 224 from rfl, List.range_add, List.countP_append, List.countP_map]
  rfl

theorem reserved_word {c : Nat} (h : c ∈ List.range 224) : 0x20#8 ≤ BitVec.ofNat 8 (32 + c) := by
  have hc := List.mem_range.mp h
  simp only [BitVec.le_def, BitVec.toNat_ofNat]
  omega

theorem legal_count : ((List.range 256).countP fun c => legal (BitVec.ofNat 8 c)) = 12 := by
  have hhigh : ((List.range 224).countP fun c => legal (BitVec.ofNat 8 (32 + c))) = 0 :=
    List.countP_eq_zero.mpr fun c hc => by simp [(legal_eq_false_iff _).mpr (.inl (reserved_word hc))]
  rw [countP_words, hhigh]
  decide

theorem illegal_count : ((List.range 256).countP fun c => !legal (BitVec.ofNat 8 c)) = 244 := by
  have hsplit := List.length_eq_countP_add_countP (fun c => legal (BitVec.ofNat 8 c)) (l := List.range 256)
  simp only [legal_count, List.length_range, Bool.not_eq_true, Bool.decide_eq_false] at hsplit
  omega

theorem reservedBits_count : ((List.range 256).countP fun c => decide (0x20#8 ≤ BitVec.ofNat 8 c)) = 224 := by
  have hhigh : ((List.range 224).countP fun c => decide (0x20#8 ≤ BitVec.ofNat 8 (32 + c))) = (List.range 224).length :=
    List.countP_eq_length.mpr fun c hc => decide_eq_true (reserved_word hc)
  rw [countP_words, hhigh, List.length_range]
  decide

theorem reservedOp_count :
    ((List.range 256).countP fun c => decide (0x18#8 ≤ BitVec.ofNat 8 c ∧ BitVec.ofNat 8 c ≤ 0x1F#8)) = 8 := by
  have hhigh : ((List.range 224).countP fun c =>
      decide (0x18#8 ≤ BitVec.ofNat 8 (32 + c) ∧ BitVec.ofNat 8 (32 + c) ≤ 0x1F#8)) = 0 :=
    List.countP_eq_zero.mpr fun c hc => by
      have hreserved := reserved_word hc
      simp only [decide_eq_true_eq]
      bv_omega
  rw [countP_words, hhigh]
  decide

namespace Machine

/-- Settles O4: the classes and their counts, the fault of the step at decode, and the reserved region-port words. -/
theorem theOtherWordsAreIllegal : Obligations.TheOtherWordsAreIllegal := by
  unfold Obligations.TheOtherWordsAreIllegal
  refine ⟨legal_eq_false_iff, legal_count, illegal_count, reservedBits_count, reservedOp_count,
    fun r rest s hs hc hl => ?_, fun q => decodeRp_reserved⟩
  exact ⟨_, step_illegal (running_of_valid_zero hs) hc hl⟩

/-! ### What the step and the instructions do with the fields -/

/-- Settles O5: the codes computed, the read-back of `Descriptor.ofCode_code`, and GETCYCLES, which answers in every state. -/
theorem descriptorsAreDistinct : Obligations.DescriptorsAreDistinct := by
  unfold Obligations.DescriptorsAreDistinct
  exact ⟨by decide, by decide, by decide, by decide, by decide, by decide, fun d d' => Descriptor.code_injective,
    fun d => ⟨d.ofCode_code, not_or.mp d.code_not_reserved⟩, fun d a s => ⟨_, rfl, rfl⟩⟩

/-- A write uses its data only through `writeValue`, the low bits of R65. -/
theorem writeOp_congr {w : AccessWidth} {v v' : Word} (h : writeValue w v = writeValue w v') (cmd : BitVec 8) (a : Address)
    (s : State) : writeOp cmd w a v s = writeOp cmd w a v' s := by
  simp only [writeOp, h]

/-- Settles O25: the two writes have one command word and one write value. -/
theorem narrowWriteIgnoresUpperBits : Obligations.NarrowWriteIgnoresUpperBits := by
  unfold Obligations.NarrowWriteIgnoresUpperBits
  intro w a v v' s h
  rw [exec_writeInstr, exec_writeInstr, writeInstr_word w a v, writeInstr_word w a v']
  exact writeOp_congr h _ a s

section
variable {s : State} {q : RpRequest} {rest : List Issue} (hc : s.commands = .rp q :: rest)
include hc

theorem step_reservedPrimitive {p : BitVec 8} (hd : decode (.rp q) = .reservedPrimitive p) :
    step s = .refused (.reservedPrimitive p) := by simp only [step, State.fetch, hc, List.head?_cons, hd]

theorem step_zeroLength (hd : decode (.rp q) = .zeroLength) : step s = .refused .zeroLength := by
  simp only [step, State.fetch, hc, List.head?_cons, hd]

theorem step_illegalDescriptor {e : BitVec 3} (hd : decode (.rp q) = .illegalDescriptor e) :
    step s = .refused (.illegalDescriptor e) := by simp only [step, State.fetch, hc, List.head?_cons, hd]

end

/-- Settles O34: the step refuses, by its name, what the region port's decoder rejects. -/
theorem regionPortRefusals : Obligations.RegionPortRefusals := by
  unfold Obligations.RegionPortRefusals
  intro q rest s hc
  exact ⟨fun hp => step_reservedPrimitive hc (decodeRp_reserved hp),
    fun hp hn => step_zeroLength hc (decode_zeroLength hp hn),
    fun hp hd => step_illegalDescriptor hc (decode_illegalDescriptor hp hd)⟩

/-- The table word's instruction is what its request decodes to. -/
theorem decode_of_decodeTableWord {nbits w : Nat} {i : Instr} (h : decodeTableWord nbits w = some i) :
    decode (.cmd (Request.ofTableWord nbits w)) = .instr i := by
  unfold decodeTableWord at h
  split at h
  · next j hj =>
    cases h
    exact hj
  all_goals cases h

/-- Settles O45: the step runs the instruction its next request decodes to, and the master moves on. -/
theorem tableWordIsTheNextRequest : Obligations.TableWordIsTheNextRequest := by
  unfold Obligations.TableWordIsTheNextRequest
  intro nbits w i s t _ hd h
  obtain ⟨-, -, hcommands, hpos, hresponses, -⟩ := exec_next_keeps h
  rw [step_instr (withFetchWord_commands s nbits w) (decode_of_decodeTableWord hd), h]
  simp [retireOutcome, retire, hcommands, hpos, hresponses]

end Machine

end Sys2Proof

/-! SUPPORT. What no request can tell apart: two states alike (R85) answer alike, by the operations that commands are built
from, then the instructions, then the step. -/

namespace Sys2Proof.Machine

/-! ### Outcomes that match -/

/-- Two faults that match: they leave the master the same responses, and alike states where `q` holds, `q` saying that a
command asked. A primitive issued directly leaves `FR` fields that are free values (log entry 8). -/
structure FaultAlike (q : Prop) (f f' : Fault) : Prop where
  responses : f'.state.responses = f.state.responses
  alike : q → f.state.Alike f'.state

/-- Two outcomes that match: completions with results related by `R`, faults that match, or one refusal. -/
inductive OutcomeAlike {α : Type} (R : α → α → Prop) (q : Prop) :
    Host.Outcome α Fault Refusal → Host.Outcome α Fault Refusal → Prop
  | next {v v' : α} (h : R v v') : OutcomeAlike R q (.next v) (.next v')
  | fault {f f' : Fault} (h : FaultAlike q f f') : OutcomeAlike R q (.fault f) (.fault f')
  | refused (r : Refusal) : OutcomeAlike R q (.refused r) (.refused r)

theorem OutcomeAlike.andThen {α β : Type} {R : α → α → Prop} {R' : β → β → Prop} {q : Prop}
    {x x' : Host.Outcome α Fault Refusal} {k k' : α → Host.Outcome β Fault Refusal} (hx : OutcomeAlike R q x x')
    (hk : ∀ v v', R v v' → OutcomeAlike R' q (k v) (k' v')) :
    OutcomeAlike R' q (Machine.andThen x k) (Machine.andThen x' k') := by
  cases hx with
  | next hv => exact hk _ _ hv
  | fault hf => exact .fault hf
  | refused r => exact .refused r

/-- The condition `q` may be made stronger: fewer faults then have to leave alike states. -/
theorem OutcomeAlike.imp {α : Type} {R : α → α → Prop} {p q : Prop} {x x' : Host.Outcome α Fault Refusal}
    (h : OutcomeAlike R q x x') (hpq : p → q) : OutcomeAlike R p x x' := by
  cases h with
  | next hv => exact .next hv
  | fault hf => exact .fault ⟨hf.responses, fun hp => hf.alike (hpq hp)⟩
  | refused r => exact .refused r

/-! ### What alike states have in common -/

/-- A transfer's fault records no free value (R29, R138): a command asked, and its length fits in FR.len. -/
theorem transfer_records (w : AccessWidth) (cmd : BitVec 8) : w.bytes < 8 ∧ ∃ x, some cmd = some x :=
  ⟨(AccessWidth.bytes_le_four w).trans_lt (by decide), cmd, rfl⟩

section
variable {s s' : State} (h : s.Alike s')
include h

/-- `covers(a, n)` and the index of the range are made of `IDX` and `CAP` (R24). -/
theorem State.Alike.locate_eq (a : Address) (n : Nat) : s'.region.locate a n = s.region.locate a n := by
  simp only [Region.locate, h.idx, h.cap]

theorem State.Alike.viewBytes_eq (v : View) : viewBytes s'.storage v = viewBytes s.storage v := by
  simp only [viewBytes, h.storage]

/-- Views, response and region-port answer replaced alike, and storage replaced by storage that reads the same. -/
theorem State.Alike.update {m m' : Memory} (hm : ∀ j, Memory.read m j = Memory.read m' j) (vs : List View) (p : Response)
    (x : Option PrimResult) :
    State.Alike { s with storage := m, views := vs, rsp := p, primRsp := x }
      { s' with storage := m', views := vs, rsp := p, primRsp := x } :=
  { h with storage := hm, views := rfl, rsp := rfl, primRsp := rfl }

/-- Storage alike stays alike when one list of bytes is written at one index. -/
theorem State.Alike.writeBytes (i : Nat) (bs : List Byte) (j : Nat) :
    Memory.read (Memory.writeBytes s.storage i bs) j = Memory.read (Memory.writeBytes s'.storage i bs) j := by
  rw [Memory.read_writeBytes, Memory.read_writeBytes, h.storage]

theorem State.Alike.retire (x : Issue) : (Machine.retire x s).Alike (Machine.retire x s') where
  __ := h
  commands := congrArg List.tail h.commands
  pos := congrArg (· + 1) h.pos
  responses := by
    cases x with
    | cmd r => rw [retire_responses_command, retire_responses_command, h.responses, h.rsp]
    | rp q => exact h.responses

/-- A fault whose record holds no free value leaves alike states; every fault leaves the responses as they were. -/
theorem State.Alike.raise {q : Prop} (c : Cause) {cmd : Option (BitVec 8)} (a : Address) {n : Nat} (p : BitVec 2)
    (hq : q → n < 8 ∧ ∃ w, cmd = some w) :
    FaultAlike q (c.fault (Machine.raise c cmd a n p s)) (c.fault (Machine.raise c cmd a n p s')) := by
  refine ⟨?_, fun hcmd => ?_⟩
  · simp [h.responses]
  · obtain ⟨hn, w, rfl⟩ := hq hcmd
    rw [cause_fault_state, cause_fault_state]
    exact { h with fr := by simp [recordLen, hn], rsp := rfl, primRsp := rfl }

theorem State.Alike.stopped (q : Prop) : FaultAlike q (.stopped s) (.stopped s') := ⟨h.responses.symm, fun _ => h⟩

/-! ### The operations, the instructions and the step -/

theorem whenRunning_alike {q : Prop} {k k' : Host.Outcome State Fault Refusal}
    (hk : OutcomeAlike State.Alike q k k') : OutcomeAlike State.Alike q (whenRunning s k) (whenRunning s' k') := by
  by_cases hv : s.fr.valid = 1#1
  · rw [whenRunning_stopped hv, whenRunning_stopped (h.fr ▸ hv)]
    exact .fault (h.stopped q)
  · rwa [whenRunning_running hv, whenRunning_running (h.fr ▸ hv)]

/-- The view primitives find the same range and the same conflicts: one view and alike states, or one fault. -/
theorem acquire_alike {q : Prop} (kind : ViewKind) {cmd : Option (BitVec 8)} (a : Address) {n : Nat}
    (hq : q → n < 8 ∧ ∃ w, cmd = some w) :
    OutcomeAlike (fun u u' : View × State => u.1 = u'.1 ∧ u.2.Alike u'.2) q (acquire kind cmd a n s)
      (acquire kind cmd a n s') := by
  rcases acquire_cases kind cmd a n s with ⟨rfl, he⟩ | ⟨hn, hc, he⟩ | ⟨i, hn, hi, hv, he⟩ | ⟨i, hn, hi, hv, he⟩
  · rw [he, acquire, if_pos rfl]
    exact .refused _
  · rw [← Region.locate_eq_none, ← h.locate_eq, Region.locate_eq_none] at hc
    rw [he, acquire_uncovered hn hc]
    exact .fault (h.raise _ a _ hq)
  · rw [he, acquire_alias hn ((h.locate_eq a n).trans hi) (h.views ▸ hv)]
    exact .fault (h.raise _ a _ hq)
  · rw [he, acquire_granted hn ((h.locate_eq a n).trans hi) (h.views ▸ hv)]
    exact .next ⟨rfl, { h with views := by rw [h.views] }⟩

/-- The view stays live and is the answer. No command asks, so the faults need not leave alike states. -/
theorem viewPrimitive_alike {q : Prop} (kind : ViewKind) (a : Address) (n : Nat) (hq : ¬q) :
    OutcomeAlike State.Alike q (viewPrimitive kind a n s) (viewPrimitive kind a n s') := by
  refine whenRunning_alike h ((acquire_alike h kind a fun hcmd => absurd hcmd hq).andThen ?_)
  rintro ⟨v, u⟩ ⟨-, u'⟩ ⟨rfl, hu⟩
  exact .next { hu with primRsp := rfl }

/-- Every instruction: a transfer goes on from its view, a query and GETCYCLES answer `CYCLE_FN`. -/
theorem exec_alike (i : Instr) : OutcomeAlike State.Alike (i.isCommand = true) (exec i s) (exec i s') := by
  rcases instr_cases i with ⟨w, a, rfl⟩ | ⟨w, a, v, rfl⟩ | ⟨t, w, a, rfl⟩ | ⟨a, n, rfl⟩ | ⟨a, n, rfl⟩ | ⟨a, d, rfl⟩
  · rw [exec_readInstr, exec_readInstr]
    refine whenRunning_alike h ((acquire_alike h .imm a fun _ => transfer_records w _).andThen ?_)
    rintro ⟨v, u⟩ ⟨-, u'⟩ ⟨rfl, hu⟩
    simp only [hu.viewBytes_eq]
    exact .next (hu.update hu.storage _ _ _)
  · rw [exec_writeInstr, exec_writeInstr]
    refine whenRunning_alike h ((acquire_alike h .mut a fun _ => transfer_records w _).andThen ?_)
    rintro ⟨x, u⟩ ⟨-, u'⟩ ⟨rfl, hu⟩
    exact .next (hu.update (hu.writeBytes _ _) _ _ _)
  · rw [exec_cyclesInstr, exec_cyclesInstr, cyclesOp, cyclesOp, h.cycleFn]
    exact whenRunning_alike h (.next (h.update h.storage _ _ _))
  · exact viewPrimitive_alike h .imm a n nofun
  · exact viewPrimitive_alike h .mut a n nofun
  · exact .next { h with primRsp := congrArg (fun n => some (PrimResult.cycles n)) (h.cycleFn a d) }

end

theorem OutcomeAlike.retireOutcome {q : Prop} {o o' : Host.Outcome State Fault Refusal}
    (ho : OutcomeAlike State.Alike q o o') (x : Issue) :
    OutcomeAlike State.Alike q (Machine.retireOutcome x o) (Machine.retireOutcome x o') :=
  ho.andThen fun _ _ hu => .next (hu.retire x)

/-- The step: both masters issue one request, which both decode alike. -/
theorem step_alike {s s' : State} (h : s.Alike s') :
    OutcomeAlike State.Alike (∀ x ∈ s.commands, x.isCommand = true) (step s) (step s') := by
  have hfetch : s'.fetch = s.fetch := congrArg List.head? h.commands.symm
  rw [step, step, hfetch]
  cases hx : s.fetch with
  | none => exact whenRunning_alike h (.next h)
  | some x =>
    cases x with
    | cmd r =>
      refine whenRunning_alike h ?_
      cases hd : decode (.cmd r) with
      | instr i => exact ((exec_alike h i).imp fun _ => isCommand_of_request hd).retireOutcome _
      | illegalCommand c => exact .fault (h.raise _ _ _ fun _ => ⟨by decide, _, rfl⟩)
      | reservedPrimitive p => exact .refused _
      | illegalDescriptor d => exact .refused _
      | zeroLength => exact .refused _
    | rp q =>
      have hmem : Issue.rp q ∈ s.commands := List.mem_of_mem_head? hx
      dsimp only
      cases hd : decode (.rp q) with
      | instr i => exact ((exec_alike h i).imp fun hall => nomatch hall _ hmem).retireOutcome _
      | illegalCommand c => exact .refused _
      | reservedPrimitive p => exact .refused _
      | illegalDescriptor d => exact .refused _
      | zeroLength => exact .refused _

/-- Settles O51: the three clauses are the three ways in which the two outcomes of `step_alike` match. -/
theorem equalRegionsAreIndistinguishable : Obligations.EqualRegionsAreIndistinguishable := by
  unfold Obligations.EqualRegionsAreIndistinguishable
  intro s s' h
  have hmatch := step_alike h
  refine ⟨fun t ht => ?_, fun f hf => ?_, fun r hr => ?_⟩
  · rw [ht] at hmatch
    generalize step s' = o at hmatch ⊢
    cases hmatch with
    | next hu => exact ⟨_, rfl, hu⟩
  · rw [hf] at hmatch
    generalize step s' = o at hmatch ⊢
    cases hmatch with
    | fault hg => exact ⟨_, rfl, hg.responses, hg.alike⟩
  · rw [hr] at hmatch
    generalize step s' = o at hmatch ⊢
    cases hmatch with
    | refused => rfl

end Sys2Proof.Machine

/-! SUPPORT. The region primitives issued directly at the region port (R86 to R92): a rule for each outcome, for both kinds of
view, then what a view holds and that views stay exclusive. -/

namespace Sys2Proof.Machine

/-! ### One rule per outcome of a view primitive (R86, R88) -/

section
variable {kind : ViewKind} {a : Address} {n i : Nat} {s : State}

theorem viewPrimitive_granted (hs : s.fr.valid ≠ 1#1) (hn : n ≠ 0) (hi : s.region.locate a n = some i)
    (hv : conflicts ⟨kind, i, n⟩ s.views = false) : viewPrimitive kind a n s =
      .next { s with views := s.views ++ [⟨kind, i, n⟩], primRsp := some (.view ⟨kind, i, n⟩) } := by
  rw [viewPrimitive, whenRunning_running hs, acquire_granted hn hi hv, andThen_next]

theorem viewPrimitive_uncovered (hs : s.fr.valid ≠ 1#1) (hn : n ≠ 0) (hc : s.region.covers a n = false) :
    viewPrimitive kind a n s = .fault (.rangeFault (raise .rangeFault none a n kind.primCode s)) := by
  rw [viewPrimitive, whenRunning_running hs, acquire_uncovered hn hc, andThen_raiseFault]
  rfl

theorem viewPrimitive_alias (hs : s.fr.valid ≠ 1#1) (hn : n ≠ 0) (hi : s.region.locate a n = some i)
    (hv : conflicts ⟨kind, i, n⟩ s.views = true) :
    viewPrimitive kind a n s = .fault (.aliasViolation (raise .aliasViolation none a n kind.primCode s)) := by
  rw [viewPrimitive, whenRunning_running hs, acquire_alias hn hi hv, andThen_raiseFault]
  rfl

theorem viewPrimitive_zeroLength (hs : s.fr.valid ≠ 1#1) : viewPrimitive kind a 0 s = .refused .zeroLength := by
  rw [viewPrimitive, whenRunning_running hs, acquire, if_pos rfl, andThen_refused]

end

/-- What a fatal fault leaves and what it records (R138), the length where 3 bits hold it. -/
theorem raise_records (c : Cause) (cmd : Option (BitVec 8)) (a : Address) (n : Nat) (p : BitVec 2) (s : State) :
    (raise c cmd a n p s).storage = s.storage ∧ (raise c cmd a n p s).views = s.views ∧
      (raise c cmd a n p s).fr.valid = 1#1 ∧ (raise c cmd a n p s).fr.code = c.code ∧
      (raise c cmd a n p s).fr.addr = a ∧ (raise c cmd a n p s).fr.prim = p ∧
      (n < 8 → (raise c cmd a n p s).fr.len = BitVec.ofNat 3 n) :=
  ⟨rfl, rfl, rfl, rfl, rfl, rfl, fun hn => if_pos hn⟩

/-- Settles O30: GETBYTES conflicts with the live mutable views that overlap (R86). -/
theorem getBytesGrantsAnImmutableView : Obligations.GetBytesGrantsAnImmutableView := by
  unfold Obligations.GetBytesGrantsAnImmutableView
  intro a n s hvalid
  have hs := running_of_valid_zero hvalid
  refine ⟨fun i hn hc hf => ?_, fun hn hc => ?_, fun i hn hc hf => ?_, viewPrimitive_zeroLength hs⟩
  · exact viewPrimitive_granted hs (Nat.ne_of_gt hn) (Region.covers_locate.mp hc) (free_writers_iff.mp hf)
  · exact ⟨_, viewPrimitive_uncovered hs (Nat.ne_of_gt hn) (Region.not_covers.mp hc), raise_records _ _ _ _ _ _⟩
  · rw [free_writers_iff, Bool.not_eq_false] at hf
    exact ⟨_, viewPrimitive_alias hs (Nat.ne_of_gt hn) (Region.covers_locate.mp hc) hf, raise_records _ _ _ _ _ _⟩

/-- A write to element `k` of a live mutable view stores one byte, at `S[i + k]`, and changes nothing else (R88). -/
theorem viewWrite_live {t : State} {v : View} {k : Nat} (ht : t.fr.valid ≠ 1#1) (hv : v ∈ t.views) (hm : v.kind = .mut)
    (hk : k < v.len) (b : Byte) : ∃ u, t.viewWrite v k b = some u ∧ u = { t with storage := u.storage } ∧
      Memory.read u.storage (v.start + k) = b ∧ ∀ j, j ≠ v.start + k → Memory.read u.storage j = Memory.read t.storage j :=
  ⟨_, if_pos ⟨ht, hv, hm, hk⟩, rfl, Memory.read_write_same _ _ _, fun _ hj => Memory.read_write_other _ _ hj⟩

/-- Settles O31: GETBYTESMUT conflicts with every live view that overlaps, and its own view is then live (R88). -/
theorem getBytesMutGrantsAnExclusiveView : Obligations.GetBytesMutGrantsAnExclusiveView := by
  unfold Obligations.GetBytesMutGrantsAnExclusiveView
  intro a n s hvalid
  have hs := running_of_valid_zero hvalid
  refine ⟨fun i hn hc hf => ?_, fun hn hc => ?_, fun i hn hc hf => ?_, viewPrimitive_zeroLength hs⟩
  · refine ⟨_, viewPrimitive_granted hs (Nat.ne_of_gt hn) (Region.covers_locate.mp hc) (free_views_iff.mp hf), rfl,
      fun k b hk => viewWrite_live ?_ (List.mem_append_right _ (List.mem_singleton_self _)) rfl hk b⟩
    exact hs
  · exact ⟨_, viewPrimitive_uncovered hs (Nat.ne_of_gt hn) (Region.not_covers.mp hc), raise_records _ _ _ _ _ _⟩
  · rw [free_views_iff, Bool.not_eq_false] at hf
    exact ⟨_, viewPrimitive_alias hs (Nat.ne_of_gt hn) (Region.covers_locate.mp hc) hf, raise_records _ _ _ _ _ _⟩

/-! ### The elements of a view (R87) -/

theorem viewBytes_getElem? (m : Memory) {v : View} {k : Nat} (hk : k < v.len) :
    (viewBytes m v)[k]? = some (Memory.read m (v.start + k)) := by
  simp [viewBytes, hk]

theorem byteAt_of_covers {s : State} {a : Address} {j : Nat} (h : s.region.Covers a 1 j) :
    s.byteAt a = some (Memory.read s.storage j) := by
  rw [State.byteAt, Region.covers_locate.mp h, Option.map_some]

/-- Every element of a view of a covered range is the byte at its own address, for both kinds of view. -/
theorem viewPrimitive_elements {kind : ViewKind} {a : Address} {n : Nat} {s t : State}
    (hwf : RegionWf s.region.idx s.region.cap) (h : viewPrimitive kind a n s = .next t) :
    ∃ v, t.primRsp = some (.view v) ∧ (viewBytes t.storage v).length = n ∧
      ∀ k, k < n → (viewBytes t.storage v)[k]? = t.byteAt (a + BitVec.ofNat 32 k) := by
  obtain ⟨-, i, -, hi, -, rfl⟩ := viewPrimitive_eq_next h
  refine ⟨⟨kind, i, n⟩, rfl, viewBytes_length _ _, fun k hk => ?_⟩
  rw [viewBytes_getElem? _ hk]
  exact (byteAt_of_covers ((Region.covers_locate.mpr hi).inside hwf hk hk)).symm

/-- Settles O33: both instructions are the view primitive of their kind. -/
theorem viewHasExactlyItsLength : Obligations.ViewHasExactlyItsLength := by
  unfold Obligations.ViewHasExactlyItsLength
  rintro i a n s t hwf (rfl | rfl) h
  · exact viewPrimitive_elements hwf h
  · exact viewPrimitive_elements hwf h

/-! ### Exclusivity byte by byte (R89) -/

/-- No storage byte lies in two views that do not overlap (R30). -/
theorem no_shared_byte {u v : View} (h : u.overlaps v = false) (j : Nat) :
    ¬((u.start ≤ j ∧ j < u.start + u.len) ∧ (v.start ≤ j ∧ j < v.start + v.len)) := by
  rintro ⟨⟨hu, hu'⟩, hv, hv'⟩
  have hover : u.overlaps v = true := (View.overlaps_iff u v).mpr ⟨hu.trans_lt hv', hv.trans_lt hu'⟩
  rw [h] at hover
  cases hover

/-- A view that passes the check overlaps no live view where either is mutable (R86, R88). -/
theorem overlaps_of_no_conflict {u v : View} {vs : List View} (h : conflicts v vs = false) (hu : u ∈ vs)
    (hk : u.kind = .mut ∨ v.kind = .mut) : u.overlaps v = false := by
  have hcheck := List.any_eq_false.mp h u hu
  rcases hk with hk | hk <;> simpa [hk] using hcheck

/-- Settles O49: a step that completes drops every view, keeps the views there are, or adds one that passed the check. -/
theorem viewsStayExclusive : Obligations.ViewsStayExclusive := by
  unfold Obligations.ViewsStayExclusive
  refine ⟨applyReset_views, fun s t hex h => ?_⟩
  rcases step_eq_next h with ⟨-, -, rfl⟩ | ⟨x, rest, i, u, -, -, hu, rfl⟩
  · exact hex
  · rw [retire_views]
    rcases exec_next_views hu with he | ⟨-, he | ⟨v, hv, -, -, he⟩⟩
    · rw [he]
      exact List.Pairwise.nil
    · rwa [he]
    · rw [he]
      refine List.pairwise_append.mpr ⟨hex, List.pairwise_singleton _ _, fun w hw y hy hk j => ?_⟩
      obtain rfl := List.mem_singleton.mp hy
      exact no_shared_byte (overlaps_of_no_conflict hv hw hk) j

/-! ### GETCYCLES and the queries (R91, R92) -/

/-- GETCYCLES answers in every state, a stopped one too (R91; log entry 16). -/
theorem exec_getCycles (a : Address) (d : Descriptor) (s : State) :
    exec (.getCycles a d) s = .next { s with primRsp := some (.cycles (s.region.cycleFn a d)) } := rfl

/-- Settles O32. -/
theorem getCyclesAnswersTheTimingFunction : Obligations.GetCyclesAnswersTheTimingFunction := by
  unfold Obligations.GetCyclesAnswersTheTimingFunction
  exact exec_getCycles

/-- A query and GETCYCLES answer `CYCLE_FN` of the address and the descriptor (R91, R120). -/
theorem cycles_answers {s : State} (hs : s.fr.valid = 0#1) (ty : AccessType) (w : AccessWidth) (a : Address) :
    ∃ t u, exec (cyclesInstr ty w a) s = .next t ∧ t.rsp.cyc = some (s.region.cycleFn a (combine ty w)) ∧
      exec (.getCycles a (combine ty w)) s = .next u ∧
      u.primRsp = some (.cycles (s.region.cycleFn a (combine ty w))) := by
  rw [exec_cyclesInstr, cyclesOp_completes (running_of_valid_zero hs), exec_getCycles]
  exact ⟨_, _, rfl, rfl, rfl, rfl⟩

/-- Settles O29: both states answer one value of the timing function they share. -/
theorem cycleCostDependsOnTimingOnly : Obligations.CycleCostDependsOnTimingOnly := by
  unfold Obligations.CycleCostDependsOnTimingOnly
  intro s s' ty w a hs hs' hcyc
  obtain ⟨t, u, ht, hr, hu, hp⟩ := cycles_answers hs ty w a
  obtain ⟨t', u', ht', hr', hu', hp'⟩ := cycles_answers hs' ty w a
  rw [← hcyc] at hr' hp'
  exact ⟨t, t', u, u', _, ht, ht', hr, hr', hu, hu', hp, hp'⟩

end Sys2Proof.Machine

/-! SUPPORT. The transfers with the whole state they leave (R100 to R107): a rule for each outcome of a read and of a write, for
every width, then the six transfers from these rules; and the step with the whole state it leaves (R27, R100). -/

namespace Sys2Proof

/-- No index function covers a range that passes the top address (R50). -/
theorem Region.not_covers_of_past_top {r : Region} {a : Address} {n : Nat} (h : 2 ^ addrWidth < a.toNat + n) (i : Nat) :
    ¬r.Covers a n i := fun hc => h.not_ge hc.1

/-- The four bytes from 0xFFFFFFFD on, or from a later address, pass the top address (R103, R106). -/
theorem Region.not_covers_word_at_top {r : Region} {a : Address} (h : 0xFFFFFFFD#32 ≤ a) : ∀ i, ¬r.Covers a 4 i := by
  refine Region.not_covers_of_past_top ?_
  have hle : 0xFFFFFFFD ≤ a.toNat := h
  change 2 ^ 32 < a.toNat + 4
  omega

namespace Machine

/-! ### A read, by its outcome (R100 to R103, R132), and the record of a faulting transfer (R138) -/

/-- What a faulting transfer leaves is its record and nothing else (R138): its length is one that FR.len holds. -/
theorem raise_transfer_eq_faulted (c : Cause) (cmd : BitVec 8) (a : Address) (w : AccessWidth) (p : BitVec 2) (s : State) :
    raise c (some cmd) a w.bytes p s = s.faulted ⟨1#1, c.code, cmd, a, BitVec.ofNat 3 w.bytes, p⟩ := by
  rw [← recordLen_bytes w s.draws]
  rfl

section
variable {w : AccessWidth} {a : Address} {i : Nat} {s : State} (hs : s.fr.valid = 0#1)
include hs

theorem exec_readInstr_covered (hc : s.region.Covers a w.bytes i) (hf : s.FreeOfWriters i w.bytes) :
    exec (readInstr w a) s =
      .next (s.answered ⟨some (readValue (viewBytes s.storage ⟨.imm, i, w.bytes⟩)), none, none⟩) := by
  rw [exec_readInstr, readOp_completes (running_of_valid_zero hs) (Region.covers_locate.mp hc) (free_writers_iff.mp hf)]
  rfl

theorem exec_readInstr_uncovered (hc : ∀ i, ¬s.region.Covers a w.bytes i) : exec (readInstr w a) s =
    .fault (.rangeFault (s.faulted ⟨1#1, 1#4, (readInstr w a).word, a, BitVec.ofNat 3 w.bytes, 0#2⟩)) := by
  rw [exec_readInstr, readOp_uncovered (running_of_valid_zero hs) (Region.not_covers.mp hc), raiseFault,
    raise_transfer_eq_faulted]
  rfl

end

/-! ### The value a read answers, by its width (R101 to R103) -/

section
variable (m : Memory) (kind : ViewKind) (i : Nat)

theorem readValue_view8 : readValue (viewBytes m ⟨kind, i, 1⟩) = (Memory.read m i).setWidth 32 := readValue_one _

theorem readValue_view16 :
    readValue (viewBytes m ⟨kind, i, 2⟩) = (Memory.read m (i + 1) ++ Memory.read m i).setWidth 32 := readValue_two _ _

theorem readValue_view32 : readValue (viewBytes m ⟨kind, i, 4⟩) =
    Memory.read m (i + 3) ++ Memory.read m (i + 2) ++ Memory.read m (i + 1) ++ Memory.read m i := readValue_four _ _ _ _

end

/-- Settles O12: READ8 is the read of width 1. -/
theorem read8ReturnsTheByte : Obligations.Read8ReturnsTheByte := by
  unfold Obligations.Read8ReturnsTheByte
  refine fun a d s hs => ⟨decode_of_read (w := .w8) decodeWord_read8, fun i hc hf => ?_,
    exec_readInstr_uncovered (w := .w8) hs⟩
  rw [← readValue_view8 s.storage .imm]
  exact exec_readInstr_covered (w := .w8) hs hc hf

/-- Settles O13: READ16 is the read of width 2, and from the last address its range passes the top. -/
theorem read16ReturnsTheHalfWord : Obligations.Read16ReturnsTheHalfWord := by
  unfold Obligations.Read16ReturnsTheHalfWord
  refine fun a d s hs => ⟨decode_of_read (w := .w16) decodeWord_read16, fun i hc hf => ?_,
    exec_readInstr_uncovered (w := .w16) hs, ?_⟩
  · rw [← readValue_view16 s.storage .imm]
    exact exec_readInstr_covered (w := .w16) hs hc hf
  · rintro rfl
    exact Region.not_covers_of_past_top (by decide)

/-- Settles O14: READ32 is the read of width 4. -/
theorem read32ReturnsTheWord : Obligations.Read32ReturnsTheWord := by
  unfold Obligations.Read32ReturnsTheWord
  refine fun a d s hs => ⟨decode_of_read (w := .w32) decodeWord_read32, fun i hc hf => ?_,
    exec_readInstr_uncovered (w := .w32) hs, Region.not_covers_word_at_top⟩
  rw [← readValue_view32 s.storage .imm]
  exact exec_readInstr_covered (w := .w32) hs hc hf

/-! ### A write, by its outcome (R100, R104 to R107, R132) -/

/-- Byte `k` of the value stands at index `i + k` after a write at index `i` (R107). -/
theorem read_transfer_inside (w : AccessWidth) (v : Word) (m : Memory) (i : Nat) {k : Nat} (hk : k < w.bytes) :
    Memory.read (Memory.writeBytes m i (leEncode w.bytes (writeValue w v))) (i + k) = v.extractLsb' (8 * k) 8 := by
  have hin : i ≤ i + k ∧ i + k < i + w.bytes := by omega
  rw [read_write_transfer, if_pos hin, Nat.add_sub_cancel_left]

/-- A write at index `i` leaves the bytes outside its range as they were (R47c). -/
theorem read_transfer_outside (w : AccessWidth) (v : Word) (m : Memory) {i j : Nat} (hj : j < i ∨ i + w.bytes ≤ j) :
    Memory.read (Memory.writeBytes m i (leEncode w.bytes (writeValue w v))) j = Memory.read m j := by
  have hout : ¬(i ≤ j ∧ j < i + w.bytes) := by omega
  rw [read_write_transfer, if_neg hout]

section
variable {w : AccessWidth} {a : Address} {i : Nat} {v : Word} {s : State} (hs : s.fr.valid = 0#1)
include hs

/-- The status, the bytes of the value in storage, and nothing else changed. -/
theorem exec_writeInstr_covered (hc : s.region.Covers a w.bytes i) (hf : s.FreeOfViews i w.bytes) :
    ∃ m, exec (writeInstr w a v) s = .next { s.answered ⟨none, none, some 0#1⟩ with storage := m } ∧
      (∀ k, k < w.bytes → Memory.read m (i + k) = v.extractLsb' (8 * k) 8) ∧
      ∀ j, j < i ∨ i + w.bytes ≤ j → Memory.read m j = Memory.read s.storage j := by
  refine ⟨_, ?_, fun _ => read_transfer_inside w v s.storage i, fun _ => read_transfer_outside w v s.storage⟩
  rw [exec_writeInstr, writeOp_completes (running_of_valid_zero hs) (Region.covers_locate.mp hc) (free_views_iff.mp hf)]
  rfl

theorem exec_writeInstr_uncovered (hc : ∀ i, ¬s.region.Covers a w.bytes i) : exec (writeInstr w a v) s =
    .fault (.rangeFault (s.faulted ⟨1#1, 1#4, (writeInstr w a v).word, a, BitVec.ofNat 3 w.bytes, 1#2⟩)) := by
  rw [exec_writeInstr, writeOp_uncovered (running_of_valid_zero hs) (Region.not_covers.mp hc), raiseFault,
    raise_transfer_eq_faulted]
  rfl

end

/-- Settles O15: WRITE8 is the write of width 1. -/
theorem write8StoresTheByte : Obligations.Write8StoresTheByte := by
  unfold Obligations.Write8StoresTheByte
  refine fun a d s hs => ⟨decode_of_write (w := .w8) decodeWord_write8, fun i hc hf => ?_,
    exec_writeInstr_uncovered (w := .w8) hs⟩
  obtain ⟨m, he, hin, hout⟩ := exec_writeInstr_covered (w := .w8) hs hc hf
  exact ⟨m, he, hin 0 (by decide), fun j hj => hout j (by simp only [AccessWidth.bytes]; omega)⟩

/-- Settles O16: WRITE16 is the write of width 2. -/
theorem write16StoresTheHalfWord : Obligations.Write16StoresTheHalfWord := by
  unfold Obligations.Write16StoresTheHalfWord
  refine fun a d s hs => ⟨decode_of_write (w := .w16) decodeWord_write16, fun i hc hf => ?_,
    exec_writeInstr_uncovered (w := .w16) hs⟩
  obtain ⟨m, he, hin, hout⟩ := exec_writeInstr_covered (w := .w16) hs hc hf
  exact ⟨m, he, hin 0 (by decide), hin 1 (by decide),
    fun j h0 h1 => hout j (by simp only [AccessWidth.bytes]; omega)⟩

/-- Settles O17: WRITE32 is the write of width 4. -/
theorem write32StoresTheWord : Obligations.Write32StoresTheWord := by
  unfold Obligations.Write32StoresTheWord
  refine fun a d s hs => ⟨decode_of_write (w := .w32) decodeWord_write32, fun i hc hf => ?_,
    exec_writeInstr_uncovered (w := .w32) hs, Region.not_covers_word_at_top⟩
  obtain ⟨m, he, hin, hout⟩ := exec_writeInstr_covered (w := .w32) hs hc hf
  exact ⟨m, he, hin 0 (by decide), hin 1 (by decide), hin 2 (by decide), hin 3 (by decide),
    fun j h0 h1 h2 h3 => hout j (by simp only [AccessWidth.bytes]; omega)⟩

/-- Settles O24: a write that answers a next state had its range covered, and wrote there. -/
theorem completedWriteHasStatusZero : Obligations.CompletedWriteHasStatusZero := by
  unfold Obligations.CompletedWriteHasStatusZero
  intro w a v s t h
  refine ⟨exec_writeInstr_rsp h, (exec_next_keeps h).2.1, ?_⟩
  rw [exec_writeInstr] at h
  obtain ⟨-, i, hi, -, rfl⟩ := writeOp_eq_next h
  exact ⟨i, Region.covers_locate.mpr hi, fun k => read_transfer_inside w v s.storage i⟩

/-! ### The step on an instruction (R27, R100) -/

/-- Settles O43: the step is the instruction, which writes none of the master's side itself, and the master moves on when it
completes. -/
theorem stepRunsTheDecodedInstruction : Obligations.StepRunsTheDecodedInstruction := by
  unfold Obligations.StepRunsTheDecodedInstruction
  intro x rest i s hc hd
  rw [step_instr hc hd]
  cases h : exec i s with
  | next t =>
    obtain ⟨-, -, hcommands, hpos, hresponses, -⟩ := exec_next_keeps h
    cases x with
    | cmd r => simp [retireOutcome, retire, hcommands, hc, hpos, hresponses]
    | rp q => simp [retireOutcome, retire, hcommands, hc, hpos, hresponses]
  | fault f => rfl
  | refused r => rfl

end Machine

end Sys2Proof

/-! SUPPORT. The cycle queries with the whole state they leave (R120 to R126), and that a command after one does what it would
have done without it (R127). -/

namespace Sys2Proof

theorem decode_of_not_legal {c : BitVec 8} (h : legal c = false) (a : Address) (d : Word) :
    decode (.cmd ⟨c, a, d⟩) = .illegalCommand c := by
  simp only [decode, decodeCmd, decodeWord_illegal h]

/-- The low three bits of a query's word are its descriptor (R66, R120). -/
theorem cyclesInstr_word_descriptor (t : AccessType) (w : AccessWidth) (a : Address) :
    (cyclesInstr t w a).word.extractLsb' 0 3 = (combine t w).code := by
  rw [cyclesInstr_word]
  cases t <;> cases w <;> decide

namespace Machine

/-! ### One query, whole (R120 to R126) -/

/-- The word of a query decodes to it, and it answers `CYCLE_FN` at every address, covered or not. -/
theorem cycles_answered_and_decoded {s : State} (hs : s.fr.valid = 0#1) (a : Address) (d : Word) (t : AccessType)
    (w : AccessWidth) {c : BitVec 8} (hc : decodeWord c = .cycles t w) :
    exec (cyclesInstr t w a) s = .next (s.answered ⟨none, some (s.region.cycleFn a (combine t w)), none⟩) ∧
      decode (.cmd ⟨c, a, d⟩) = .instr (cyclesInstr t w a) := by
  refine ⟨?_, decode_of_cycles hc⟩
  rw [exec_cyclesInstr, cyclesOp_completes (running_of_valid_zero hs)]
  rfl

/-- Settles O27: the six queries are one rule, and a query's word is the one that its type and width fix. -/
theorem cycleQueryAnswersTheCost : Obligations.CycleQueryAnswersTheCost := by
  unfold Obligations.CycleQueryAnswersTheCost
  intro a d s hs
  have rule := cycles_answered_and_decoded hs a d
  refine ⟨rule .nonSequential .w8 decodeWord_cyclesN8, rule .nonSequential .w16 decodeWord_cyclesN16,
    rule .nonSequential .w32 decodeWord_cyclesN32, rule .sequential .w8 decodeWord_cyclesS8,
    rule .sequential .w16 decodeWord_cyclesS16, rule .sequential .w32 decodeWord_cyclesS32, fun c t w hc => ?_,
    decode_of_not_legal (by decide) a d, decode_of_not_legal (by decide) a d⟩
  rw [← word_of_decodeWord.2.2 c t w hc, cyclesInstr_word_descriptor]

/-! ### A command after a command that only answered (R127) -/

@[simp] theorem endCommand_endCommand (p q : Response) (s : State) : endCommand q (endCommand p s) = endCommand q s := rfl

section
variable {s : State} (hv : s.views = [])
include hv

/-- The fatal path overwrites both ports, so the answer of the command before leaves no trace in it (R138). -/
theorem raise_endCommand (c : Cause) (cmd : Option (BitVec 8)) (a : Address) (n : Nat) (prim : BitVec 2) (p : Response) :
    raise c cmd a n prim (endCommand p s) = raise c cmd a n prim s := by
  simp only [raise, endCommand, hv]

/-- A view is granted or refused as before, so what goes on from it is the same if it reads neither port. -/
theorem andThen_acquire_endCommand {α : Type} {k : View × State → Host.Outcome α Fault Refusal} {p : Response}
    (hk : ∀ v t, k (v, { t with rsp := p, primRsp := none }) = k (v, t)) (kind : ViewKind) (cmd : Option (BitVec 8))
    (a : Address) (n : Nat) :
    andThen (acquire kind cmd a n (endCommand p s)) k = andThen (acquire kind cmd a n s) k := by
  rcases acquire_cases kind cmd a n s with ⟨rfl, he⟩ | ⟨hn, hc, he⟩ | ⟨i, -, -, hconflict, -⟩ | ⟨i, hn, hi, -, he⟩
  · rw [he, acquire, if_pos rfl]
  · rw [he, acquire_uncovered (s := endCommand p s) hn hc, raiseFault, raiseFault, raise_endCommand hv]
  · rw [hv, conflicts_nil] at hconflict
    cases hconflict
  · rw [he, acquire_granted (s := endCommand p s) hn hi (conflicts_nil _), hv]
    exact hk _ { s with views := [⟨kind, i, n⟩] }

variable (hs : s.fr.valid ≠ 1#1)
include hs

theorem readOp_endCommand (cmd : BitVec 8) (w : AccessWidth) (a : Address) (p : Response) :
    readOp cmd w a (endCommand p s) = readOp cmd w a s := by
  rw [readOp, readOp, whenRunning_running hs, whenRunning_running (s := endCommand p s) hs]
  exact andThen_acquire_endCommand hv (fun _ _ => rfl) _ _ _ _

theorem writeOp_endCommand (cmd : BitVec 8) (w : AccessWidth) (a : Address) (v : Word) (p : Response) :
    writeOp cmd w a v (endCommand p s) = writeOp cmd w a v s := by
  rw [writeOp, writeOp, whenRunning_running hs, whenRunning_running (s := endCommand p s) hs]
  exact andThen_acquire_endCommand hv (fun _ _ => rfl) _ _ _ _

/-- No command reads what the response port or the region port holds: at a command boundary it does the same whatever response
stands there. -/
theorem exec_endCommand {i : Instr} (hi : i.isCommand = true) (p : Response) : exec i (endCommand p s) = exec i s := by
  rcases command_cases hi with ⟨w, a, rfl⟩ | ⟨w, a, v, rfl⟩ | ⟨t, w, a, rfl⟩
  · rw [exec_readInstr, exec_readInstr, readOp_endCommand hv hs]
  · rw [exec_writeInstr, exec_writeInstr, writeOp_endCommand hv hs]
  · rw [exec_cyclesInstr, exec_cyclesInstr, cyclesOp_completes hs, cyclesOp_completes (s := endCommand p s) hs,
      endCommand_endCommand, endCommand_region]

end

/-- Settles O28: a query leaves `S` and `FR`, and nothing but its response, which no command after it reads. The query itself
is one of the commands after it. -/
theorem cycleQueryIsPure : Obligations.CycleQueryIsPure := by
  unfold Obligations.CycleQueryIsPure
  intro t w a s u hv h
  have hrun := h
  rw [exec_cyclesInstr] at hrun
  obtain ⟨hs, rfl⟩ := cyclesOp_eq_next hrun
  have hsame := fun (i : Instr) (hi : i.isCommand = true) => exec_endCommand hv hs hi
    (Response.ofCyc (s.region.cycleFn a (combine t w)))
  exact ⟨rfl, rfl, (hsame _ (isCommand_cyclesInstr t w a)).trans h, hsame⟩

end Machine

end Sys2Proof

/-! SUPPORT. The fatal faults (R130 to R141): a rule for each fault of a transfer with the whole state it leaves, then when each
one is raised and in which order, what a fault leaves unchanged, and the stopped controller. -/

namespace Sys2Proof.Machine

/-! ### ALIAS_VIOLATION, by the command that raises it (R134) -/

section
variable {cmd : BitVec 8} {w : AccessWidth} {a : Address} {v : Word} {i : Nat} {s : State}

/-- A read whose range is covered, but not free of live mutable views, raises ALIAS_VIOLATION in GETBYTES. -/
theorem readOp_alias (hs : s.fr.valid ≠ 1#1) (hi : s.region.locate a w.bytes = some i)
    (hv : conflicts ⟨.imm, i, w.bytes⟩ s.views = true) :
    readOp cmd w a s = raiseFault .aliasViolation (some cmd) a w.bytes 0#2 s := by
  rw [readOp, whenRunning_running hs, acquire_alias (AccessWidth.bytes_ne_zero w) hi hv, andThen_raiseFault]
  rfl

/-- A write whose range is covered, but not free of live views, raises ALIAS_VIOLATION in GETBYTESMUT. -/
theorem writeOp_alias (hs : s.fr.valid ≠ 1#1) (hi : s.region.locate a w.bytes = some i)
    (hv : conflicts ⟨.mut, i, w.bytes⟩ s.views = true) :
    writeOp cmd w a v s = raiseFault .aliasViolation (some cmd) a w.bytes 1#2 s := by
  rw [writeOp, whenRunning_running hs, acquire_alias (AccessWidth.bytes_ne_zero w) hi hv, andThen_raiseFault]
  rfl

variable (hs : s.fr.valid = 0#1)
include hs

theorem exec_readInstr_alias (hc : s.region.Covers a w.bytes i) (hf : ¬s.FreeOfWriters i w.bytes) :
    exec (readInstr w a) s =
      .fault (.aliasViolation (s.faulted ⟨1#1, 3#4, (readInstr w a).word, a, BitVec.ofNat 3 w.bytes, 0#2⟩)) := by
  rw [free_writers_iff, Bool.not_eq_false] at hf
  rw [exec_readInstr, readOp_alias (running_of_valid_zero hs) (Region.covers_locate.mp hc) hf, raiseFault,
    raise_transfer_eq_faulted]
  rfl

theorem exec_writeInstr_alias (hc : s.region.Covers a w.bytes i) (hf : ¬s.FreeOfViews i w.bytes) :
    exec (writeInstr w a v) s =
      .fault (.aliasViolation (s.faulted ⟨1#1, 3#4, (writeInstr w a v).word, a, BitVec.ofNat 3 w.bytes, 1#2⟩)) := by
  rw [free_views_iff, Bool.not_eq_false] at hf
  rw [exec_writeInstr, writeOp_alias (running_of_valid_zero hs) (Region.covers_locate.mp hc) hf, raiseFault,
    raise_transfer_eq_faulted]
  rfl

end

/-- Settles O36: the two rules, one for each kind of transfer. -/
theorem overlappingViewIsAnAliasViolation : Obligations.OverlappingViewIsAnAliasViolation := by
  unfold Obligations.OverlappingViewIsAnAliasViolation
  exact fun w a v i s hs hc => ⟨exec_readInstr_alias hs hc, exec_writeInstr_alias hs hc⟩

/-! ### RANGE_FAULT and the covered range (R132) -/

section
variable {w : AccessWidth} {a : Address} {v : Word} {i : Nat} {s t : State} (hs : s.fr.valid = 0#1)
include hs

/-- A read of a covered range completes or raises ALIAS_VIOLATION, as its view is granted or not. -/
theorem exec_readInstr_covered_ne_rangeFault (hc : s.region.Covers a w.bytes i) :
    exec (readInstr w a) s ≠ .fault (.rangeFault t) := by
  by_cases hf : s.FreeOfWriters i w.bytes
  · rw [exec_readInstr_covered hs hc hf]
    nofun
  · rw [exec_readInstr_alias hs hc hf]
    nofun

/-- A write to a covered range completes or raises ALIAS_VIOLATION, as its view is granted or not. -/
theorem exec_writeInstr_covered_ne_rangeFault (hc : s.region.Covers a w.bytes i) :
    exec (writeInstr w a v) s ≠ .fault (.rangeFault t) := by
  by_cases hf : s.FreeOfViews i w.bytes
  · obtain ⟨m, he, -, -⟩ := exec_writeInstr_covered hs hc hf
    rw [he]
    nofun
  · rw [exec_writeInstr_alias hs hc hf]
    nofun

/-- A query asks for no view and raises nothing (R120). -/
theorem exec_cyclesInstr_ne_fault (ty : AccessType) (f : Fault) : exec (cyclesInstr ty w a) s ≠ .fault f := by
  rw [exec_cyclesInstr, cyclesOp_completes (running_of_valid_zero hs)]
  nofun

end

/-- Settles O23: the uncovered range fixes the fault and its record, the covered one excludes it. -/
theorem rangeFaultIffNotCovered : Obligations.RangeFaultIffNotCovered := by
  unfold Obligations.RangeFaultIffNotCovered
  intro w a v s hs
  have hread : ∀ t, exec (readInstr w a) s = .fault (.rangeFault t) → ∀ i, ¬s.region.Covers a w.bytes i :=
    fun t h i hc => exec_readInstr_covered_ne_rangeFault hs hc h
  have hwrite : ∀ t, exec (writeInstr w a v) s = .fault (.rangeFault t) → ∀ i, ¬s.region.Covers a w.bytes i :=
    fun t h i hc => exec_writeInstr_covered_ne_rangeFault hs hc h
  refine ⟨⟨fun ⟨t, h⟩ => hread t h, fun hc => ⟨_, exec_readInstr_uncovered hs hc⟩⟩,
    ⟨fun ⟨t, h⟩ => hwrite t h, fun hc => ⟨_, exec_writeInstr_uncovered hs hc⟩⟩, fun t h => ?_, fun t h => ?_,
    fun ty t => exec_cyclesInstr_ne_fault hs ty _⟩
  · cases (exec_readInstr_uncovered hs (hread t h)).symm.trans h
    rfl
  · cases (exec_writeInstr_uncovered hs (hwrite t h)).symm.trans h
    rfl

/-! ### The step on a command that faults (R133, R137) -/

/-- Settles O35: the step raises it at decode, with length 0 and no primitive. -/
theorem illegalCommandIsRaisedAtDecode : Obligations.IllegalCommandIsRaisedAtDecode := by
  unfold Obligations.IllegalCommandIsRaisedAtDecode
  intro r rest s hs hc hl
  rw [step_illegal (running_of_valid_zero hs) hc hl]
  rfl

section
variable {s : State} {x : Issue} {rest : List Issue} {i : Instr} (hc : s.commands = x :: rest) (hd : decode x = .instr i)
include hc hd

/-- A request whose instruction faults does not retire: the fault is the step's. -/
theorem step_of_exec_fault {f : Fault} (h : exec i s = .fault f) : step s = .fault f := by
  rw [step_instr hc hd, h]
  rfl

/-- A request whose instruction completes retires. -/
theorem step_of_exec_next {t : State} (h : exec i s = .next t) : step s = .next (retire x t) := by
  rw [step_instr hc hd, h]
  rfl

end

/-- Settles O37: each clause is the rule of the next request's instruction, taken to the step. -/
theorem faultsHaveTheirPriority : Obligations.FaultsHaveTheirPriority := by
  unfold Obligations.FaultsHaveTheirPriority
  intro r rest s hc
  refine ⟨fun hv => step_stopped hv (by simp [hc]), fun hs hl => ⟨_, step_illegal (running_of_valid_zero hs) hc hl⟩,
    fun w hs hop hn => ?_, fun w i hs hop hcov hf => ?_, fun w i hs hop hcov => ⟨fun hf => ?_, fun hf => ?_⟩⟩
  · rcases hop with hop | hop
    · exact ⟨_, step_of_exec_fault hc (decode_of_read hop) (exec_readInstr_uncovered hs hn)⟩
    · exact ⟨_, step_of_exec_fault hc (decode_of_write hop) (exec_writeInstr_uncovered hs hn)⟩
  · exact ⟨_, step_of_exec_fault hc (decode_of_read hop) (exec_readInstr_alias hs hcov hf)⟩
  · exact ⟨_, step_of_exec_fault hc (decode_of_write hop) (exec_writeInstr_alias hs hcov hf)⟩
  · obtain ⟨m, he, -, -⟩ := exec_writeInstr_covered hs hcov hf
    exact ⟨_, step_of_exec_next hc (decode_of_write hop) he, rfl⟩

/-! ### What a fault leaves unchanged (R139) -/

/-- Entering a fatal fault writes the record, empties the ports and may draw a free value; no other field changes (R138). -/
theorem raise_eq_faulted (c : Cause) (cmd : Option (BitVec 8)) (a : Address) (n : Nat) (p : BitVec 2) (s : State) :
    raise c cmd a n p s =
      { s.faulted (raise c cmd a n p s).fr with draws := (raise c cmd a n p s).draws } := rfl

/-- Settles O38: a step that faults was stopped in its own state, or entered a fault from it. -/
theorem faultsArePrecise : Obligations.FaultsArePrecise := by
  unfold Obligations.FaultsArePrecise
  intro s f h
  rcases step_eq_fault h with ⟨-, rfl⟩ | ⟨-, c, cmd, a, n, p, rfl⟩
  · exact ⟨rfl, rfl, rfl, rfl, rfl, rfl, .inl rfl⟩
  · rw [cause_fault_state]
    exact ⟨rfl, rfl, rfl, rfl, rfl, rfl, .inr ⟨_, rfl, raise_eq_faulted c cmd a n p s⟩⟩

/-! ### The stopped and the idle controller (R140, R148) -/

/-- Only the region port's decoder answers GETCYCLES (R94). -/
theorem issue_of_getCycles {x : Issue} {a : Address} {d : Descriptor} (h : decode x = .instr (.getCycles a d)) :
    ∃ q, x = .rp q := by
  cases x with
  | cmd r => cases isCommand_of_request h
  | rp q => exact ⟨q, rfl⟩

/-- A step of a stopped controller that completes is a GETCYCLES issued directly, and answers nothing but its number (R91). -/
theorem step_next_of_stopped {s t : State} (hv : s.fr.valid = 1#1) (h : step s = .next t) :
    t.storage = s.storage ∧ t.fr = s.fr ∧ t.responses = s.responses := by
  rcases step_eq_next h with ⟨hs, -, -⟩ | ⟨x, rest, i, u, -, hd, hu, rfl⟩
  · exact absurd hv hs
  · obtain ⟨a, d, rfl⟩ := (exec_next_running hu).resolve_left (absurd hv)
    obtain ⟨q, rfl⟩ := issue_of_getCycles hd
    cases hu
    exact ⟨rfl, rfl, rfl⟩

/-- No view is written through on a stopped controller (R140; log entry 12). -/
theorem viewWrite_stopped {s : State} (hv : s.fr.valid = 1#1) (v : View) (k : Nat) (b : Byte) :
    s.viewWrite v k b = none := if_neg fun h => h.1 hv

/-- Settles O39: nothing but GETCYCLES issued directly has a step, and a fault is that of the stopped controller. -/
theorem stoppedControllerHasNoStep : Obligations.StoppedControllerHasNoStep := by
  unfold Obligations.StoppedControllerHasNoStep
  intro s hv
  refine ⟨step_stopped hv, fun i => exec_stopped hv, fun t => step_next_of_stopped hv, fun f h => ?_,
    viewWrite_stopped hv, rfl⟩
  rcases step_eq_fault h with ⟨-, hf⟩ | ⟨hs, -⟩
  · exact hf
  · exact absurd hv hs

/-- Settles O44. -/
theorem controllerWithoutRequestIsIdle : Obligations.ControllerWithoutRequestIsIdle := by
  unfold Obligations.ControllerWithoutRequestIsIdle
  exact fun s hs => step_idle (running_of_valid_zero hs)

end Sys2Proof.Machine

/-! SUPPORT. Reset (R150): a running controller accepts every instruction, and a stopped one keeps its record until reset. -/

namespace Sys2Proof.Machine

/-- The causes of a fatal fault (R131) do not include the stop of a stopped controller (R140). -/
theorem cause_fault_ne_stopped (c : Cause) (s t : State) : c.fault s ≠ .stopped t := by
  cases c <;> nofun

/-- A running controller turns no instruction away as stopped. -/
theorem exec_running_ne_stopped {s : State} (hs : s.fr.valid ≠ 1#1) (i : Instr) (t : State) :
    exec i s ≠ .fault (.stopped t) := by
  intro h
  rcases exec_eq_fault h with ⟨hv, -⟩ | ⟨-, c, cmd, a, n, p, -, -, hf⟩
  · exact hs hv
  · exact cause_fault_ne_stopped c _ t hf.symm

/-- A fault of a stopped controller's step leaves the state it was in (R140). -/
theorem step_fault_state_of_stopped {s : State} {f : Fault} (hv : s.fr.valid = 1#1) (h : step s = .fault f) :
    f.state = s := by
  rcases step_eq_fault h with ⟨-, rfl⟩ | ⟨hs, -⟩
  · rfl
  · exact absurd hv hs

/-- On a stopped controller no command has a next state (R140). -/
theorem exec_command_stopped_ne_next {s : State} (hv : s.fr.valid = 1#1) {i : Instr} (hi : i.isCommand = true) (t : State) :
    exec i s ≠ .next t := by
  rw [exec_stopped hv (ne_getCycles_of_command hi)]
  nofun

/-- Settles O7: the state that reset leaves is running, so no instruction is turned away as stopped; a completing step never
writes the record, and a stopped state's fault is that state. -/
theorem resetLeavesTheResetState : Obligations.ResetLeavesTheResetState := by
  unfold Obligations.ResetLeavesTheResetState
  intro s
  have hrun : (applyReset s).fr.valid ≠ 1#1 := running_of_valid_zero (congrArg FaultRecord.valid (applyReset_fr s))
  refine ⟨applyReset_storage s, applyReset_fr s, applyReset_views s, applyReset_rsp s, applyReset_region s,
    exec_running_ne_stopped hrun, fun hv => ⟨fun t h => (step_next_keeps h).2, fun f h => ?_, fun i t hi => ?_⟩⟩
  · rw [step_fault_state_of_stopped hv h]
  · exact exec_command_stopped_ne_next hv hi t

end Sys2Proof.Machine
